-- ==== Sys2Proof/Word.lean ====
section
/-! DEFINITION. The values the engine computes with: words, register indices and raw quadruples.

A machine value, a word, is a signed mathematical integer and its Lean type is Int (00_scope R9, R13): no register,
cell or field is split into bits and nothing wraps, so a word is no bit vector. Which integers are words is a parameter
of the machine (`WordBits.contains`). -/

namespace Sys2Proof

/-- A checked register index (00_scope R8, 10_state R20): one of 0 to 6. -/
abbrev Reg := Fin 7

/-- A raw instruction (30_encoding R71): the quadruple `(opcode, r, l, m)`, each field a word taken as it stands
(R74). It is also what the decode register and the error record hold. -/
structure Quad where
  opcode : Int
  r : Int
  l : Int
  m : Int
deriving DecidableEq, Repr

end Sys2Proof
end

