-- ==== Sys2Proof/Machine/Errors.lean ====
section
/-! DEFINITION. The errors the engine raises (60_exceptions R137, R138): causes, kinds and their codes. -/

namespace Sys2Proof.Machine

/-- The error kinds (R137). CallDisciplineError is never raised (R150) and has no constructor. -/
inductive Kind where
  | decodeError
  | arithmeticError
  | addressingError
  | ioError
  | unwrittenReadError
deriving DecidableEq, Repr

/-- The causes of R138, in its order. -/
inductive Cause where
  | badOpcode
  | badSys
  | divZero
  | modZero
  | overflow
  | regIndex
  | negLevel
  | resolveRange
  | stackRange
  | spRange
  | pcRange
  | inputUnavailable
  | inputRange
  | regUnwritten
  | cellUnwritten
deriving DecidableEq, Repr

/-- The kind a cause belongs to (R138). -/
def Cause.kind : Cause → Kind
  | .badOpcode | .badSys => .decodeError
  | .divZero | .modZero | .overflow => .arithmeticError
  | .regIndex | .negLevel | .resolveRange | .stackRange | .spRange | .pcRange => .addressingError
  | .inputUnavailable | .inputRange => .ioError
  | .regUnwritten | .cellUnwritten => .unwrittenReadError

/-- The kind codes of R138. -/
def Kind.code : Kind → Nat
  | .decodeError => 1
  | .arithmeticError => 2
  | .addressingError => 3
  | .ioError => 4
  | .unwrittenReadError => 5

/-- The cause codes of R138, numbered within each kind. -/
def Cause.code : Cause → Nat
  | .badOpcode => 1
  | .badSys => 2
  | .divZero => 1
  | .modZero => 2
  | .overflow => 3
  | .regIndex => 1
  | .negLevel => 2
  | .resolveRange => 3
  | .stackRange => 4
  | .spRange => 5
  | .pcRange => 6
  | .inputUnavailable => 1
  | .inputRange => 2
  | .regUnwritten => 1
  | .cellUnwritten => 2

/-- What `raise K(cause, info)` of 00_scope R14 carries; `info` is an unbounded integer (R138). -/
structure Raise where
  cause : Cause
  info : Int
deriving DecidableEq, Repr

end Sys2Proof.Machine
end

