-- ==== Sys2Proof/Config.lean ====
section
/-! DEFINITION. The engine's parameters (00_scope section 2, R8 to R12) and the bounds the spec puts on them.
The engine leaves no value open, so there is no free value here (93_implementation_defined, U1 to U27). -/

namespace Sys2Proof

/-- `WORD_BITS` (00_scope R9, decision D1): a width of at least 8, or `UNBOUNDED`. -/
inductive WordBits where
  /-- Words lie in [-2^(n-1), 2^(n-1) - 1]. -/
  | bounded (n : Nat)
  /-- Every integer is a word. -/
  | unbounded
deriving DecidableEq, Repr

/-- `INIT_CONTENT` (00_scope R12, decision D10): what registers and stack cells hold after reset. -/
inductive InitContent where
  /-- They hold no value. -/
  | empty
  /-- They hold 0. -/
  | zero
deriving DecidableEq, Repr

/-- The word range [WORD_MIN, WORD_MAX] (00_scope R9). -/
def WordBits.contains : WordBits → Int → Bool
  | .bounded n, v => decide (-((2 ^ (n - 1) : Nat) : Int) ≤ v ∧ v < ((2 ^ (n - 1) : Nat) : Int))
  | .unbounded, _ => true

/-- Is `v` WORD_MIN (00_scope R9)? With `UNBOUNDED` there is none. -/
def WordBits.isMin : WordBits → Int → Bool
  | .bounded n, v => decide (v = -((2 ^ (n - 1) : Nat) : Int))
  | .unbounded, _ => false

/-- The parameters a run is launched with (00_scope section 2, 70_reset_and_hazards R168). -/
structure Params where
  wordBits : WordBits
  /-- `STACK_CAP`, the number of stack cells (R10). -/
  stackCap : Nat
  /-- `CODE_CAP`, the largest program (R11). -/
  codeCap : Nat
  initContent : InitContent
deriving DecidableEq, Repr

/-- What a register or cell nothing has written holds (R12): no value under `EMPTY`, 0 under `ZERO`. -/
def Params.initial (p : Params) : Option Int :=
  match p.initContent with
  | .empty => none
  | .zero => some 0

/-- A width the spec admits: at least 8, or unbounded (R9). -/
def WordBits.admitted : WordBits → Bool
  | .bounded n => decide (8 ≤ n)
  | .unbounded => true

/-- The parameter bounds of R9 to R11: a width of at least 8, 1 ≤ STACK_CAP ≤ WORD_MAX, CODE_CAP ≤ WORD_MAX - 1. -/
abbrev Params.wf (p : Params) : Prop :=
  p.wordBits.admitted = true ∧ 1 ≤ p.stackCap
    ∧ p.wordBits.contains p.stackCap = true ∧ p.wordBits.contains (p.codeCap + 1) = true

/-- The parameters of `State.reset`. DESIGN CHOICE (log entry 2): the spec's 32-bit words, its example capacity of
100 cells, and the largest CODE_CAP it admits; DESIGN CHOICE (log entry 3): `ZERO`, so that every register holds a value
after reset. Unsafe for a claim that rests on them; every statement ranges over all parameters instead. -/
def Params.default : Params :=
  { wordBits := .bounded 32, stackCap := 100, codeCap := 2147483646, initContent := .zero }

end Sys2Proof
end

