-- ==== Sys2Proof/Syntax.lean ====
section
/-! DEFINITION. The decoded instruction (30_encoding R83): a tagged variant with one case per row of
spec/opcode_table.json, each carrying only the fields it uses. -/

namespace Sys2Proof

/-- The 24 instructions of 30_encoding R76. A register operand is a checked index (R80), a level a hop count
that is not negative (R82), every other operand the field's word as it stands (R74). -/
inductive Instr where
  /-- Opcode 1, R96. -/
  | lit (r : Reg) (value : Int)
  /-- Opcode 2, R101. -/
  | rtn
  /-- Opcode 3, R97. -/
  | lod (r : Reg) (level : Nat) (offset : Int)
  /-- Opcode 4, R98. -/
  | sto (r : Reg) (level : Nat) (offset : Int)
  /-- Opcode 5, R102. -/
  | cal (level : Nat) (target : Int)
  /-- Opcode 6, R103. -/
  | inc (count : Int)
  /-- Opcode 7, R109. -/
  | jmp (target : Int)
  /-- Opcode 8, R110. -/
  | jpc (r : Reg) (target : Int)
  /-- Opcode 9 with m = 1, R113. -/
  | sysWrite (r : Reg)
  /-- Opcode 9 with m = 2, R114. -/
  | sysRead (r : Reg)
  /-- Opcode 9 with m = 3, R115. -/
  | sysHalt
  /-- Opcode 10, R121. -/
  | neg (r : Reg)
  /-- Opcode 11, R122: destination, first source (field l), second source (field m). -/
  | add (r a b : Reg)
  /-- Opcode 12, R123. -/
  | sub (r a b : Reg)
  /-- Opcode 13, R124. -/
  | mul (r a b : Reg)
  /-- Opcode 14, R125. -/
  | div (r a b : Reg)
  /-- Opcode 15, R126. -/
  | odd (r : Reg)
  /-- Opcode 16, R127. -/
  | mod (r a b : Reg)
  /-- Opcode 17, R130. -/
  | eql (r a b : Reg)
  /-- Opcode 18, R131. -/
  | neq (r a b : Reg)
  /-- Opcode 19, R132. -/
  | lss (r a b : Reg)
  /-- Opcode 20, R133. -/
  | leq (r a b : Reg)
  /-- Opcode 21, R134. -/
  | gtr (r a b : Reg)
  /-- Opcode 22, R135. -/
  | geq (r a b : Reg)
deriving DecidableEq, Repr

end Sys2Proof
end

