-- ==== Sys2Proof/WellFormed.lean ====
section
/-! DEFINITION. Which instructions and quadruples fit program memory: every field is a word of the machine
(30_encoding R71). -/

namespace Sys2Proof

/-- A quadruple program memory can hold (R71): each field is a word. -/
abbrev Quad.WellFormed (b : WordBits) (q : Quad) : Prop :=
  b.contains q.opcode = true ∧ b.contains q.r = true ∧ b.contains q.l = true ∧ b.contains q.m = true

/-- Can an instruction stand in program memory: do the operands that are not register indices fit a word (R71)?
Register indices and levels are already checked by their types (R80, R82). -/
def Instr.wellFormed (b : WordBits) : Instr → Bool
  | .lit _ value => b.contains value
  | .rtn => true
  | .lod _ level offset => b.contains level && b.contains offset
  | .sto _ level offset => b.contains level && b.contains offset
  | .cal level target => b.contains level && b.contains target
  | .inc count => b.contains count
  | .jmp target => b.contains target
  | .jpc _ target => b.contains target
  | .sysWrite _ => true
  | .sysRead _ => true
  | .sysHalt => true
  | .neg _ => true
  | .add _ _ _ => true
  | .sub _ _ _ => true
  | .mul _ _ _ => true
  | .div _ _ _ => true
  | .odd _ => true
  | .mod _ _ _ => true
  | .eql _ _ _ => true
  | .neq _ _ _ => true
  | .lss _ _ _ => true
  | .leq _ _ _ => true
  | .gtr _ _ _ => true
  | .geq _ _ _ => true

end Sys2Proof
end

