-- ==== Sys2Proof/Decode.lean ====
section
/-! DEFINITION. Decoding a quadruple (30_encoding R73, R76 to R84), the encoder, and the model's own layout of a
quadruple in a table word. -/

namespace Sys2Proof

open Sys2Proof.Machine

/-- A field used as a register index must lie in [0, 6] (R80). -/
def regField (v : Int) : Except Raise Reg :=
  if h : 0 ≤ v ∧ v ≤ 6 then .ok ⟨v.toNat, by omega⟩
  else .error ⟨.regIndex, v⟩

/-- A field used as a lexical level must not be negative (R82). -/
def levelField (v : Int) : Except Raise Nat :=
  if v < 0 then .error ⟨.negLevel, v⟩ else .ok v.toNat

/-- One register in field r: LIT, JPC, SYS write, SYS read, NEG, ODD (R73). -/
def decodeReg (q : Quad) (f : Reg → Instr) : Except Raise Instr := do
  let r ← regField q.r
  return f r

/-- Registers in r, l and m, checked in that order: the eleven binary operations (R73, R80). -/
def decodeBinary (q : Quad) (f : Reg → Reg → Reg → Instr) : Except Raise Instr := do
  let r ← regField q.r
  let a ← regField q.l
  let b ← regField q.m
  return f r a b

/-- A register in r, then a level in l, and an offset in m: LOD and STO (R73, R80, R82). -/
def decodeAccess (q : Quad) (f : Reg → Nat → Int → Instr) : Except Raise Instr := do
  let r ← regField q.r
  let level ← levelField q.l
  return f r level q.m

/-- CAL: a level in l and a target in m; r is ignored (R73, R82). -/
def decodeCall (q : Quad) : Except Raise Instr := do
  let level ← levelField q.l
  return .cal level q.m

/-- SYS: m selects the sub-operation (R77); any other m is BAD_SYS (R79). A negative m has `toNat` 0. -/
def decodeSys (q : Quad) : Except Raise Instr :=
  match q.m.toNat with
  | 1 => decodeReg q .sysWrite
  | 2 => decodeReg q .sysRead
  | 3 => .ok .sysHalt
  | _ => .error ⟨.badSys, q.m⟩

/-- The decoder, total on quadruples: the opcode map of R76 with the checks of R78 to R82 in their order. Unused
fields are not looked at (R75). A negative opcode has `toNat` 0, which is no opcode. -/
def decode (q : Quad) : Except Raise Instr :=
  match q.opcode.toNat with
  | 1 => decodeReg q (fun r => .lit r q.m)
  | 2 => .ok .rtn
  | 3 => decodeAccess q .lod
  | 4 => decodeAccess q .sto
  | 5 => decodeCall q
  | 6 => .ok (.inc q.m)
  | 7 => .ok (.jmp q.m)
  | 8 => decodeReg q (fun r => .jpc r q.m)
  | 9 => decodeSys q
  | 10 => decodeReg q .neg
  | 11 => decodeBinary q .add
  | 12 => decodeBinary q .sub
  | 13 => decodeBinary q .mul
  | 14 => decodeBinary q .div
  | 15 => decodeReg q .odd
  | 16 => decodeBinary q .mod
  | 17 => decodeBinary q .eql
  | 18 => decodeBinary q .neq
  | 19 => decodeBinary q .lss
  | 20 => decodeBinary q .leq
  | 21 => decodeBinary q .gtr
  | 22 => decodeBinary q .geq
  | _ => .error ⟨.badOpcode, q.opcode⟩

/-- A register index as a field. -/
def regWord (r : Reg) : Int := (r.val : Int)

/-- The encoder: the quadruple of an instruction by the tables of R73 and R76, unused fields 0. -/
def encode : Instr → Quad
  | .lit r value => ⟨1, regWord r, 0, value⟩
  | .rtn => ⟨2, 0, 0, 0⟩
  | .lod r level offset => ⟨3, regWord r, level, offset⟩
  | .sto r level offset => ⟨4, regWord r, level, offset⟩
  | .cal level target => ⟨5, 0, level, target⟩
  | .inc count => ⟨6, 0, 0, count⟩
  | .jmp target => ⟨7, 0, 0, target⟩
  | .jpc r target => ⟨8, regWord r, 0, target⟩
  | .sysWrite r => ⟨9, regWord r, 0, 1⟩
  | .sysRead r => ⟨9, regWord r, 0, 2⟩
  | .sysHalt => ⟨9, 0, 0, 3⟩
  | .neg r => ⟨10, regWord r, 0, 0⟩
  | .add r a b => ⟨11, regWord r, regWord a, regWord b⟩
  | .sub r a b => ⟨12, regWord r, regWord a, regWord b⟩
  | .mul r a b => ⟨13, regWord r, regWord a, regWord b⟩
  | .div r a b => ⟨14, regWord r, regWord a, regWord b⟩
  | .odd r => ⟨15, regWord r, 0, 0⟩
  | .mod r a b => ⟨16, regWord r, regWord a, regWord b⟩
  | .eql r a b => ⟨17, regWord r, regWord a, regWord b⟩
  | .neq r a b => ⟨18, regWord r, regWord a, regWord b⟩
  | .lss r a b => ⟨19, regWord r, regWord a, regWord b⟩
  | .leq r a b => ⟨20, regWord r, regWord a, regWord b⟩
  | .gtr r a b => ⟨21, regWord r, regWord a, regWord b⟩
  | .geq r a b => ⟨22, regWord r, regWord a, regWord b⟩

/-- The signed word a 32-bit pattern stands for, in two's complement. DESIGN CHOICE (log entry 13): the spec has no
bit layout of an instruction (00_scope R6). -/
def wordOfBits (n : Nat) : Int := if n < 2 ^ 31 then (n : Int) else (n : Int) - 2 ^ 32

/-- The 32-bit pattern of a signed word. DESIGN CHOICE (log entry 13). -/
def bitsOfWord (v : Int) : Nat := (v % 2 ^ 32).toNat

/-- The quadruple laid out in a table word: opcode in bits 31..0, r in 63..32, l in 95..64, m in 127..96, every bit at
or above `nbits` zero. DESIGN CHOICE (log entry 13). -/
def quadOfTableWord (nbits w : Nat) : Quad :=
  let x := w % 2 ^ nbits
  { opcode := wordOfBits (x % 2 ^ 32)
    r := wordOfBits (x / 2 ^ 32 % 2 ^ 32)
    l := wordOfBits (x / 2 ^ 64 % 2 ^ 32)
    m := wordOfBits (x / 2 ^ 96 % 2 ^ 32) }

/-- A quadruple as a table word, the inverse of `quadOfTableWord 128` on quadruples of 32-bit words. -/
def tableWordOfQuad (q : Quad) : Nat :=
  bitsOfWord q.opcode + 2 ^ 32 * bitsOfWord q.r + 2 ^ 64 * bitsOfWord q.l + 2 ^ 96 * bitsOfWord q.m

/-- The table word of an instruction. -/
def encodeTableWord (i : Instr) : Nat := tableWordOfQuad (encode i)

/-- The instruction the decoder reads from a table word, none where it raises. -/
def decodeTableWord (nbits w : Nat) : Option Instr :=
  match decode (quadOfTableWord nbits w) with
  | .ok i => some i
  | .error _ => none

end Sys2Proof
end

