-- ==== Sys2Proof/Machine/State.lean ====
section
/-! DEFINITION. The engine's state (10_state R20 to R39), the reasons a step can stop, and the state after reset
(70_reset_and_hazards R163). -/

namespace Sys2Proof.Machine

/-- The run state (10_state R31). -/
inductive RunState where
  | running
  /-- Blocked in a console read (30_encoding R92). -/
  | waitInput
  | halted
  | faulted
deriving DecidableEq, Repr

/-- The console input collaborator's answer to one read (10_state R41); the value may be any integer. -/
inductive Answer where
  | value (v : Int)
  | unavailable
deriving DecidableEq, Repr

/-- One output event (10_state R42). -/
structure OutEvent where
  reg : Reg
  value : Int
deriving DecidableEq, Repr

/-- The error record (10_state R34). Its kind and its codes are functions of the cause (`ErrRecord.kind`). -/
structure ErrRecord where
  cause : Cause
  /-- The index of the failing instruction, or the PC value of the failed fetch. -/
  pc : Int
  /-- The failing quadruple, none when the fetch itself failed. -/
  insn : Option Quad
  info : Int
deriving DecidableEq, Repr

/-- Stack memory (20_memory R48, R49): address and word pairs, addresses strictly rising, no entry equal to what an
unlisted address holds (`Memory.wf`). A cell is a word, not a byte (log entry 4). -/
abbrev Memory := List (Nat × Int)

/-- The whole architectural state (10_state R38), and beside it the parameters and the console answers, which the
spec calls no state (R39) and no step invents (log entries 1 and 6). -/
structure State where
  /-- The parameters; no step writes them (R39). -/
  params : Params
  /-- RF[0..6], each a word or empty (R20). -/
  rf : Vector (Option Int) 7
  /-- ST (R36). -/
  st : Memory
  /-- PC, an instruction index (R28). -/
  pc : Int
  /-- SP (R26). -/
  sp : Int
  /-- BP (R24). -/
  bp : Int
  /-- IR, the decode register (R30). -/
  ir : Option Quad
  /-- The run state (R31). -/
  run : RunState
  /-- The error record (R34). -/
  err : Option ErrRecord
  /-- The output log, oldest event first (R35). -/
  out : List OutEvent
  /-- IMEM, read-only; its length is PROG_LEN (R37, R40). -/
  imem : List Quad
  /-- The host's answers to the reads to come, oldest first (R41). -/
  answers : List Answer
deriving DecidableEq, Repr

/-- Why no step occurs. The spec's own errors are none of these: each is a next state with run = Faulted
(60_exceptions R144). -/
inductive Fault where
  /-- Raised by `step` in Halted: no further step occurs (30_encoding R91). Safe (log entry 8). -/
  | engineHalted
  /-- Raised by `step` in Faulted: no step follows an error (60_exceptions R149). Safe (log entry 8). -/
  | engineFaulted
  /-- Raised by `resume` when an answer arrives in WaitInput and IR holds no SYS read, a state no run reaches
  (10_state R30). Safe (log entry 9). -/
  | waitWithoutRead
deriving DecidableEq, Repr

/-- Why an instruction has no meaning. No arm answers with it: every row of the table is modelled. -/
inductive Refusal where
  /-- Raised by an arm of `exec` that has no meaning yet. Safe. -/
  | notModelled (mnemonic : String)
deriving DecidableEq, Repr

/-- What a meaning and a step answer. -/
abbrev Result := Host.Outcome State Fault Refusal

/-- The state after reset for given parameters, program image and console answers (70_reset_and_hazards R163):
PC = 0, SP = STACK_CAP, BP = STACK_CAP - 1, every register and cell at INIT_CONTENT, no IR, Running, no error, no
output. -/
def State.resetWith (p : Params) (image : List Quad) (answers : List Answer) : State :=
  { params := p
    rf := Vector.replicate 7 p.initial
    st := []
    pc := 0
    sp := p.stackCap
    bp := p.stackCap - 1
    ir := none
    run := .running
    err := none
    out := []
    imem := image
    answers := answers }

/-- The state after reset with the default parameters, no program loaded and no answer given (log entries 2, 3, 5
and 6). -/
def State.reset : State := State.resetWith Params.default [] []

end Sys2Proof.Machine
end

