-- ==== Sys2Proof/Machine/Ops.lean ====
section
/-! DEFINITION. The named operations over the stack memory, the registers and the run state, taking an error
(60_exceptions R144), and the end of a meaning. There is no return from an error (R148). -/

namespace Sys2Proof.Machine

/-! ## Stack memory -/

/-- The form every stack memory keeps: addresses strictly rising and no entry equal to what an unlisted address
holds, so that equal memories are equal data. -/
abbrev Memory.wf (initial : Option Int) (mem : Memory) : Prop :=
  (mem.map Prod.fst).Pairwise (· < ·) ∧ ∀ c ∈ mem, initial ≠ some c.2

/-- The content of a cell: the listed word, or what the reset left there (00_scope R12). -/
def Memory.read (initial : Option Int) : Memory → Nat → Option Int
  | [], _ => initial
  | (k, v) :: rest, a => if k = a then some v else Memory.read initial rest a

/-- List a word at an address, in rising order, in place of what was listed there. -/
def Memory.insert : Memory → Nat → Int → Memory
  | [], a, v => [(a, v)]
  | (k, x) :: rest, a, v =>
    if a < k then (a, v) :: (k, x) :: rest
    else if a = k then (a, v) :: rest
    else (k, x) :: Memory.insert rest a v

/-- Write one cell, in canonical form: a word equal to what an unlisted address holds is not listed. -/
def Memory.write (initial : Option Int) (mem : Memory) (a : Nat) (v : Int) : Memory :=
  if initial = some v then mem.filter (fun c => c.1 != a) else Memory.insert mem a v

/-- The content of the stack cell at `a`, none when it is empty (10_state R36). -/
def State.cell (s : State) (a : Nat) : Option Int := Memory.read s.params.initial s.st a

/-- The valid stack region is the whole array (20_memory R53). -/
def State.inStack (s : State) (a : Int) : Bool := decide (0 ≤ a ∧ a < s.params.stackCap)

/-- Store a word in the cell at an address already checked. -/
def State.writeCell (s : State) (a : Nat) (v : Int) : State :=
  { s with st := Memory.write s.params.initial s.st a v }

/-! ## Registers and output -/

/-- `x[r] <- v` (00_scope R14): no register is hardwired (10_state R21). -/
def State.writeReg (s : State) (r : Reg) (v : Int) : State := { s with rf := s.rf.set r (some v) }

/-- `PC <- target` (00_scope R14): no range check (10_state R29). -/
def State.setPc (s : State) (v : Int) : State := { s with pc := v }

/-- `SP <- v` (00_scope R14), after the caller's check (10_state R27). -/
def State.setSp (s : State) (v : Int) : State := { s with sp := v }

/-- `BP <- v` (00_scope R14): no range check (10_state R25). -/
def State.setBp (s : State) (v : Int) : State := { s with bp := v }

/-- `Emit(r, v)` (10_state R42). -/
def State.emit (s : State) (r : Reg) (v : Int) : State := { s with out := s.out ++ [⟨r, v⟩] }

/-! ## Run state -/

/-- `run <- Halted` (44_system R115). -/
def State.halt (s : State) : State := { s with run := .halted }

/-- Fetch's two writes: IR takes the quadruple and PC advances by one (30_encoding R85, R86). -/
def State.latch (s : State) (q : Quad) : State := { s with ir := some q, pc := s.pc + 1 }

/-- Enter the wait of a SYS read: PC goes back to the read's index and nothing else changes (30_encoding R92). -/
def State.wait (s : State) : State := { s with run := .waitInput, pc := s.pc - 1 }

/-- Leave the wait and stand again where the read was dispatched: Running, PC advanced, IR as it was
(30_encoding R92). -/
def State.resumeRead (s : State) : State := { s with run := .running, pc := s.pc + 1 }

/-- The answers left once the read has consumed its own (44_system R114). -/
def State.setAnswers (s : State) (rest : List Answer) : State := { s with answers := rest }

/-! ## Errors -/

/-- Taking an error (60_exceptions R144), the one operation for every cause: PC is the failing index, run becomes
Faulted, the record is written, and the state is otherwise the one given. The caller passes the state before any
write of the execute phase, so none takes effect. -/
def State.takeError (s : State) (idx : Int) (insn : Option Quad) (e : Raise) : State :=
  { s with
    pc := idx
    run := .faulted
    err := some { cause := e.cause, pc := idx, insn := insn, info := e.info } }

/-- An error of the decoded or executing instruction: PC was advanced at fetch, so the failing index is PC - 1, and IR
holds the failing quadruple (10_state R34). IR keeps it (log entry 7). -/
def State.raise (s : State) (e : Raise) : State := s.takeError (s.pc - 1) s.ir e

/-- The end of a meaning (30_encoding R89): commit the computed state whole, or take the first error raised with the
state the meaning started from. -/
def State.finish (s : State) : Except Raise State → Result
  | .ok t => .next t
  | .error e => .next (s.raise e)

end Sys2Proof.Machine
end

