-- ==== Sys2Proof/Machine/Operands.lean ====
section
/-! DEFINITION. The pseudocode primitives of 00_scope R14 with the checks that are part of them, and the address
resolver (20_memory R55 to R60). -/

namespace Sys2Proof.Machine

/-- `x[i]` (00_scope R14): an empty register raises REG_UNWRITTEN. -/
def State.readReg (s : State) (i : Reg) : Except Raise Int :=
  match s.rf.get i with
  | some v => .ok v
  | none => .error ⟨.regUnwritten, regWord i⟩

/-- A checked cell read: the range first, with the cause of the access, then emptiness. -/
def State.readCell (s : State) (range : Cause) (a : Int) : Except Raise Int :=
  if s.inStack a then
    match s.cell a.toNat with
    | some v => .ok v
    | none => .error ⟨.cellUnwritten, a⟩
  else .error ⟨range, a⟩

/-- `MemRead(a, 1)` (00_scope R14). -/
def State.memRead (s : State) (a : Int) : Except Raise Int := s.readCell .stackRange a

/-- `LinkRead(a)` (20_memory R57). -/
def State.linkRead (s : State) (a : Int) : Except Raise Int := s.readCell .resolveRange a

/-- The range check of a stack address (20_memory R53). -/
def State.checkAddr (s : State) (a : Int) : Except Raise Unit :=
  if s.inStack a then .ok () else .error ⟨.stackRange, a⟩

/-- `MemWrite(a, 1, v)` (00_scope R14). -/
def State.memWrite (s : State) (a : Int) (v : Int) : Except Raise State :=
  if s.inStack a then .ok (s.writeCell a.toNat v) else .error ⟨.stackRange, a⟩

/-- The address resolver (20_memory R55): `l` hops along the static links from `b`. -/
def State.resolve (s : State) : Nat → Int → Except Raise Int
  | 0, b => .ok b
  | l + 1, b => do
    let base ← s.linkRead b
    s.resolve l base

/-- The effective address of LOD and STO (20_memory R60), over the integers. -/
def State.effectiveAddress (s : State) (level : Nat) (offset : Int) : Except Raise Int := do
  let b ← s.resolve level s.bp
  return b - offset

/-- The check of a new SP (10_state R27): it must lie in [0, STACK_CAP]. -/
def State.checkSp (s : State) (v : Int) : Except Raise Int :=
  if 0 ≤ v ∧ v ≤ s.params.stackCap then .ok v else .error ⟨.spRange, v⟩

/-- `checkWord(v)` (45_arithmetic R119): a result outside the word range raises OVERFLOW with the exact result. -/
def State.checkWord (s : State) (v : Int) : Except Raise Int :=
  if s.params.wordBits.contains v then .ok v else .error ⟨.overflow, v⟩

/-- The shape of the eleven binary operations (45_arithmetic R118, 46_relational R129): read RF[a], read RF[b], compute,
write RF[r]. -/
def State.binary (s : State) (r a b : Reg) (f : Int → Int → Except Raise Int) : Result :=
  s.finish (do
    let x ← s.readReg a
    let y ← s.readReg b
    let v ← f x y
    return s.writeReg r v)

/-- The shape of NEG and ODD (45_arithmetic R118): read RF[r], compute, write RF[r]. -/
def State.unary (s : State) (r : Reg) (f : Int → Except Raise Int) : Result :=
  s.finish (do
    let x ← s.readReg r
    let v ← f x
    return s.writeReg r v)

end Sys2Proof.Machine
end

