-- ==== Sys2Proof/Machine/Activation.lean ====
section
/-! DEFINITION. RTN, CAL, INC: the activation record protocol (42_activation R101 to R103). -/

namespace Sys2Proof.Machine

/-- RTN (R101): check the new SP, read the dynamic link and the return address under it, write SP, BP, PC. -/
def execRtn (s : State) : Result :=
  s.finish (do
    let sp ← s.checkSp (s.bp + 1)
    let dl ← s.memRead (sp - 2)
    let ra ← s.memRead (sp - 3)
    return ((s.setSp sp).setBp dl).setPc ra)

/-- CAL (R102): resolve the static link, write the three control words below SP, write BP and PC. PC was advanced at
fetch, so it is the return address (30_encoding R86). -/
def execCal (level : Nat) (target : Int) (s : State) : Result :=
  s.finish (do
    let sl ← s.resolve level s.bp
    let s1 ← s.memWrite (s.sp - 1) sl
    let s2 ← s1.memWrite (s.sp - 2) s.bp
    let s3 ← s2.memWrite (s.sp - 3) s.pc
    return (s3.setBp (s.sp - 1)).setPc target)

/-- INC (R103): allocate, or release with a negative count. -/
def execInc (count : Int) (s : State) : Result :=
  s.finish (do
    let sp ← s.checkSp (s.sp - count)
    return s.setSp sp)

end Sys2Proof.Machine
end

