-- ==== Sys2Proof/Machine/Arithmetic.lean ====
section
/-! DEFINITION. NEG, ADD, SUB, MUL, DIV, ODD, MOD (45_arithmetic R118 to R127): exact integer results, checked, and
division truncated toward zero (R120). -/

namespace Sys2Proof.Machine

/-- NEG (R121). -/
def execNeg (r : Reg) (s : State) : Result := s.unary r (fun x => s.checkWord (-x))

/-- ADD (R122). -/
def execAdd (r a b : Reg) (s : State) : Result := s.binary r a b (fun x y => s.checkWord (x + y))

/-- SUB (R123). -/
def execSub (r a b : Reg) (s : State) : Result := s.binary r a b (fun x y => s.checkWord (x - y))

/-- MUL (R124). -/
def execMul (r a b : Reg) (s : State) : Result := s.binary r a b (fun x y => s.checkWord (x * y))

/-- DIV (R125): a zero divisor raises DIV_ZERO with the divisor's register index. -/
def execDiv (r a b : Reg) (s : State) : Result :=
  s.binary r a b (fun x y =>
    if y = 0 then .error ⟨.divZero, regWord b⟩ else s.checkWord (x.tdiv y))

/-- ODD (R126): the remainder by 2, with the sign of the operand; it needs no check. -/
def execOdd (r : Reg) (s : State) : Result := s.unary r (fun x => .ok (x.tmod 2))

/-- MOD (R127): a zero divisor raises MOD_ZERO, WORD_MIN by -1 OVERFLOW. -/
def execMod (r a b : Reg) (s : State) : Result :=
  s.binary r a b (fun x y =>
    if y = 0 then .error ⟨.modZero, regWord b⟩
    else if s.params.wordBits.isMin x ∧ y = -1 then .error ⟨.overflow, x⟩
    else .ok (x.tmod y))

end Sys2Proof.Machine
end

