-- ==== Sys2Proof/Machine/Jump.lean ====
section
/-! DEFINITION. JMP, JPC (43_jump R109, R110). -/

namespace Sys2Proof.Machine

/-- JMP (R109). -/
def execJmp (target : Int) (s : State) : Result := s.finish (.ok (s.setPc target))

/-- JPC (R110): jump when RF[r] is exactly 0. -/
def execJpc (r : Reg) (target : Int) (s : State) : Result :=
  s.finish (do
    let v ← s.readReg r
    return if v = 0 then s.setPc target else s)

end Sys2Proof.Machine
end

