-- ==== Sys2Proof/Machine/LoadStore.lean ====
section
/-! DEFINITION. LIT, LOD, STO (41_load_store R96 to R98). -/

namespace Sys2Proof.Machine

/-- LIT (R96). -/
def execLit (r : Reg) (value : Int) (s : State) : Result := s.finish (.ok (s.writeReg r value))

/-- LOD (R97): walk, range check, read, write. -/
def execLod (r : Reg) (level : Nat) (offset : Int) (s : State) : Result :=
  s.finish (do
    let ea ← s.effectiveAddress level offset
    let v ← s.memRead ea
    return s.writeReg r v)

/-- STO (R98): walk, range check, read the register, write. -/
def execSto (r : Reg) (level : Nat) (offset : Int) (s : State) : Result :=
  s.finish (do
    let ea ← s.effectiveAddress level offset
    s.checkAddr ea
    let v ← s.readReg r
    s.memWrite ea v)

end Sys2Proof.Machine
end

