-- ==== Sys2Proof/Machine/Flags.lean ====
section
/-! DEFINITION. The machine has one flag, the halt flag (10_state R32, R33). It and the other status outputs
(R41, R43) are views of the run state; the relational results are words (46_relational R136). -/

namespace Sys2Proof.Machine

/-- The halt flag (10_state R32): true exactly in Halted. -/
def State.halted (s : State) : Bool := s.run == .halted

/-- The `faulted` status output (10_state R43). -/
def State.faulted (s : State) : Bool := s.run == .faulted

/-- The `in_req` output (10_state R41): asserted while the engine waits for input. -/
def State.inReq (s : State) : Bool := s.run == .waitInput

/-- The word a relation writes (46_relational R129, R136): 1 if it holds, 0 if not. -/
def truth (b : Bool) : Int := if b then 1 else 0

/-- The error kind of a record (60_exceptions R138). -/
def ErrRecord.kind (e : ErrRecord) : Kind := e.cause.kind

end Sys2Proof.Machine
end

