-- ==== Sys2Proof/Machine/Relational.lean ====
section
/-! DEFINITION. EQL, NEQ, LSS, LEQ, GTR, GEQ (46_relational R129 to R136): signed comparison, 1 or 0. -/

namespace Sys2Proof.Machine

/-- EQL (R130). -/
def execEql (r a b : Reg) (s : State) : Result := s.binary r a b (fun x y => .ok (truth (decide (x = y))))

/-- NEQ (R131). -/
def execNeq (r a b : Reg) (s : State) : Result := s.binary r a b (fun x y => .ok (truth (decide (x ≠ y))))

/-- LSS (R132). -/
def execLss (r a b : Reg) (s : State) : Result := s.binary r a b (fun x y => .ok (truth (decide (x < y))))

/-- LEQ (R133). -/
def execLeq (r a b : Reg) (s : State) : Result := s.binary r a b (fun x y => .ok (truth (decide (x ≤ y))))

/-- GTR (R134). -/
def execGtr (r a b : Reg) (s : State) : Result := s.binary r a b (fun x y => .ok (truth (decide (x > y))))

/-- GEQ (R135). -/
def execGeq (r a b : Reg) (s : State) : Result := s.binary r a b (fun x y => .ok (truth (decide (x ≥ y))))

end Sys2Proof.Machine
end

