-- ==== Sys2Proof/Machine/System.lean ====
section
/-! DEFINITION. SYS write, SYS read, SYS halt (44_system R113 to R115), and the resumption of a waiting read
(30_encoding R92). -/

namespace Sys2Proof.Machine

/-- SYS write (R113). -/
def execSysWrite (r : Reg) (s : State) : Result :=
  s.finish (do
    let v ← s.readReg r
    return s.emit r v)

/-- The checks of an answer (R114): `Unavailable` and a value that is no word are IO errors. -/
def State.checkAnswer (s : State) : Answer → Except Raise Int
  | .unavailable => .error ⟨.inputUnavailable, 0⟩
  | .value v => if s.params.wordBits.contains v then .ok v else .error ⟨.inputRange, v⟩

/-- SYS read (R114): wait while there is no answer, else consume one and write it or take the IO error. -/
def execSysRead (r : Reg) (s : State) : Result :=
  match s.answers with
  | [] => .next s.wait
  | a :: rest =>
    (s.setAnswers rest).finish (do
      let v ← s.checkAnswer a
      return (s.setAnswers rest).writeReg r v)

/-- SYS halt (R115). -/
def execSysHalt (s : State) : Result := s.finish (.ok s.halt)

/-- WaitInput (30_encoding R92): with no answer the engine makes no step, a hold that only the host's answer lifts
(70_reset_and_hazards R179). Otherwise the SYS read in IR resumes at its index (log entry 9). -/
def resume (s : State) : Result :=
  match s.answers with
  | [] => .next s
  | _ :: _ =>
    match s.ir.map decode with
    | some (.ok (.sysRead r)) => execSysRead r s.resumeRead
    | _ => .fault .waitWithoutRead

end Sys2Proof.Machine
end

