-- ==== Sys2Proof/Machine/Dispatch.lean ====
section
/-! DEFINITION. The execute phase (30_encoding R85): one arm per instruction. The state given is the one after fetch,
so PC is idx + 1 and IR holds the instruction (log entry 14). -/

namespace Sys2Proof.Machine

def exec (i : Instr) (s : State) : Host.Outcome State Fault Refusal :=
  match i with
  | .lit r value => Sys2Proof.Machine.execLit r value s
  | .rtn => Sys2Proof.Machine.execRtn s
  | .lod r level offset => Sys2Proof.Machine.execLod r level offset s
  | .sto r level offset => Sys2Proof.Machine.execSto r level offset s
  | .cal level target => Sys2Proof.Machine.execCal level target s
  | .inc count => Sys2Proof.Machine.execInc count s
  | .jmp target => Sys2Proof.Machine.execJmp target s
  | .jpc r target => Sys2Proof.Machine.execJpc r target s
  | .sysWrite r => Sys2Proof.Machine.execSysWrite r s
  | .sysRead r => Sys2Proof.Machine.execSysRead r s
  | .sysHalt => Sys2Proof.Machine.execSysHalt s
  | .neg r => Sys2Proof.Machine.execNeg r s
  | .add r a b => Sys2Proof.Machine.execAdd r a b s
  | .sub r a b => Sys2Proof.Machine.execSub r a b s
  | .mul r a b => Sys2Proof.Machine.execMul r a b s
  | .div r a b => Sys2Proof.Machine.execDiv r a b s
  | .odd r => Sys2Proof.Machine.execOdd r s
  | .mod r a b => Sys2Proof.Machine.execMod r a b s
  | .eql r a b => Sys2Proof.Machine.execEql r a b s
  | .neq r a b => Sys2Proof.Machine.execNeq r a b s
  | .lss r a b => Sys2Proof.Machine.execLss r a b s
  | .leq r a b => Sys2Proof.Machine.execLeq r a b s
  | .gtr r a b => Sys2Proof.Machine.execGtr r a b s
  | .geq r a b => Sys2Proof.Machine.execGeq r a b s

end Sys2Proof.Machine
end

