-- ==== Sys2Proof/Machine/Fetch.lean ====
section
/-! DEFINITION. The fetch and decode phases of a step (30_encoding R85 to R88), and how a table word is placed where
the next fetch finds it. -/

namespace Sys2Proof.Machine

/-- Fetch (R85, R88): the quadruple at PC, or PC_RANGE. -/
def State.fetch (s : State) : Except Raise Quad :=
  if s.pc < 0 then .error ⟨.pcRange, s.pc⟩
  else
    match s.imem[s.pc.toNat]? with
    | some q => .ok q
    | none => .error ⟨.pcRange, s.pc⟩

/-- Fetch, advance and decode (R85): the instruction and the state its meaning starts from, or the state after the
error taken. A failed fetch records no instruction (R88). -/
def State.fetchDecode (s : State) : Except State (Instr × State) :=
  match s.fetch with
  | .error e => .error (s.takeError s.pc none e)
  | .ok q =>
    match decode q with
    | .error e => .error ((s.latch q).raise e)
    | .ok i => .ok (i, s.latch q)

/-- Put a quadruple at an index of the program, lengthening it with illegal all-zero quadruples where needed. -/
def placeQuad : List Quad → Nat → Quad → List Quad
  | [], 0, q => [q]
  | [], n + 1, q => ⟨0, 0, 0, 0⟩ :: placeQuad [] n q
  | _ :: rest, 0, q => q :: rest
  | x :: rest, n + 1, q => x :: placeQuad rest n q

/-- Place a quadruple where the next fetch reads it: at PC (at 0 where PC is negative), with the engine Running. It
stands for the host's program load (log entry 5). -/
def State.withFetchQuad (s : State) (q : Quad) : State :=
  { s with
    imem := placeQuad s.imem s.pc.toNat q
    pc := (s.pc.toNat : Int)
    run := .running }

end Sys2Proof.Machine
end

