-- ==== Sys2Proof/Machine/Step.lean ====
section
/-! DEFINITION. One step of the engine (30_encoding R85, R91, R92). -/

namespace Sys2Proof.Machine

/-- One step: in Running fetch, decode and execute; in WaitInput hold or resume; in Halted and Faulted none
(log entry 8). -/
def step (s : State) : Host.Outcome State Fault Refusal :=
  match s.run with
  | .running =>
    match s.fetchDecode with
    | .ok (i, t) => exec i t
    | .error t => .next t
  | .waitInput => resume s
  | .halted => .fault .engineHalted
  | .faulted => .fault .engineFaulted

/-- `s` with the instruction of a table word placed where `step` fetches next (log entries 5 and 13). -/
def State.withFetchWord (s : State) (nbits w : Nat) : State := s.withFetchQuad (quadOfTableWord nbits w)

end Sys2Proof.Machine
end

