-- ==== Sys2Proof/Machine/Ports.lean ====
section
/-! DEFINITION. The external interface (10_state R40 to R45): program image, console input, reset, and the
observation of a committed step. Nothing here is a step of the engine. -/

namespace Sys2Proof.Machine

/-- The program image port (R40): an image of words no longer than CODE_CAP (00_scope R11) replaces the program; no
other is admitted. -/
def State.loadImage (s : State) (image : List Quad) : Option State :=
  if image.length ≤ s.params.codeCap ∧ ∀ q ∈ image, q.WellFormed s.params.wordBits then
    some { s with imem := image }
  else none

/-- The console input port (R41): the host gives one more answer. -/
def State.answer (s : State) (a : Answer) : State := { s with answers := s.answers ++ [a] }

/-- The reset input (R45): every state element takes its reset value and a wait is discarded; parameters, image and
the host's answers stay (R39; log entry 10). -/
def State.assertReset (s : State) : State := State.resetWith s.params s.imem s.answers

/-- The launch of a run (70_reset_and_hazards R168): parameters, then the image, then reset. -/
def launch (p : Params) (image : List Quad) (answers : List Answer) : Option State :=
  if p.wf then (State.resetWith p [] answers).loadImage image |>.map State.assertReset else none

/-- The observation record (R44): the executed quadruple, the pointers, the register file, and the live stack
ST[SP .. STACK_CAP - 1] from SP up, empty ones shown as empty. -/
structure Observation where
  insn : Quad
  pc : Int
  bp : Int
  sp : Int
  rf : Vector (Option Int) 7
  live : List (Nat × Option Int)
deriving DecidableEq, Repr

/-- The live stack (20_memory R51): the cells SP to STACK_CAP - 1 with their contents, lowest address first. -/
def State.liveStack (s : State) : List (Nat × Option Int) :=
  ((List.range s.params.stackCap).filter (fun (a : Nat) => decide (s.sp ≤ (a : Int)))).map (fun a => (a, s.cell a))

/-- What a state shows after a committed step; none before the first fetch, when IR holds no instruction. -/
def State.observe (s : State) : Option Observation :=
  s.ir.map (fun q => ⟨q, s.pc, s.bp, s.sp, s.rf, s.liveStack⟩)

/-- The observation port (R44): one record for each committed step, which ends Running or Halted, and none for a step
that faults, waits or does not occur. -/
def stepObservation (s : State) : Option Observation :=
  match step s with
  | .next t => if t.run = .running ∨ t.run = .halted then t.observe else none
  | _ => none

end Sys2Proof.Machine
end

