-- ==== Sys2Proof/Safety.lean ====
section
/-! DEFINITION. What a state of a run satisfies: the ranges and shapes the spec gives every state element. -/

namespace Sys2Proof.Machine

/-- `v` is a word of the machine (00_scope R9). -/
abbrev State.isWord (s : State) (v : Int) : Prop := s.params.wordBits.contains v = true

/-- `a` is the address of a stack cell (20_memory R53). -/
abbrev State.inArray (s : State) (a : Int) : Prop := 0 ≤ a ∧ a < s.params.stackCap

/-- The instruction at PC is `q`: PC lies in the program (30_encoding R85, R88). -/
abbrev State.fetches (s : State) (q : Quad) : Prop := 0 ≤ s.pc ∧ s.imem[s.pc.toNat]? = some q

/-- The invariant of every reachable state. -/
structure State.Inv (s : State) : Prop where
  /-- The parameters are ones the spec admits (00_scope R9 to R11). -/
  params : s.params.wf
  /-- PROG_LEN ≤ CODE_CAP (00_scope R11). -/
  progLen : s.imem.length ≤ s.params.codeCap
  /-- Every field of the program is a word (30_encoding R71). -/
  image : ∀ q ∈ s.imem, q.WellFormed s.params.wordBits
  /-- A register holds a word or is empty (10_state R20). -/
  regs : ∀ r v, s.rf.get r = some v → s.isWord v
  /-- Under ZERO no register is empty (60_exceptions R143). -/
  filled : s.params.initContent = .zero → ∀ r, (s.rf.get r).isSome = true
  /-- The stack memory is in its canonical form. -/
  canonical : Memory.wf s.params.initial s.st
  /-- Every listed cell exists and holds a word (10_state R36). -/
  cells : ∀ c ∈ s.st, c.1 < s.params.stackCap ∧ s.isWord c.2
  /-- PC is a word (10_state R28). -/
  pcWord : s.isWord s.pc
  /-- BP is a word (10_state R24). -/
  bpWord : s.isWord s.bp
  /-- SP lies in [0, STACK_CAP] (10_state R27). -/
  spRange : 0 ≤ s.sp ∧ s.sp ≤ s.params.stackCap
  /-- There is an error record exactly in Faulted (10_state R34, 60_exceptions R144). -/
  errRun : s.err.isSome = true ↔ s.run = .faulted
  /-- In WaitInput PC stands at a SYS read of the program, which IR holds (10_state R30, 30_encoding R92). -/
  waiting : s.run = .waitInput → ∃ q r, s.fetches q ∧ s.ir = some q ∧ decode q = .ok (.sysRead r)
  /-- Every event of the output log carries a word (10_state R42). -/
  events : ∀ e ∈ s.out, s.isWord e.value

end Sys2Proof.Machine
end

