-- ==== Sys2Proof/Certificates/Slice0/Obligations.lean ====
section
/-! DEFINITION. The statements for the provers. Each ranges over every parameter set, since the parameters are data of
the state. `exec` runs on the state after fetch, so its PC is idx + 1 (30_encoding R86, log entry 14); every
equation `exec i s = .next (s with some fields replaced)` says that every other field, and so every register and every
cell not named, is as it was. An equation with `s.raise e` gives the whole aborted state, by decision D19 and, for IR,
log entry 7. -/

open Sys2Proof Sys2Proof.Machine

/-! ## Reset and the invariant -/

/-- 70_reset_and_hazards R167: reset, at launch and through the reset input, leaves Running with the halt flag false, and
Halted is terminal. -/
def Obligations.ResetStartsRunningWithHaltFlagFalse : Prop :=
  (∀ p image answers, (State.resetWith p image answers).run = .running
    ∧ (State.resetWith p image answers).halted = false) ∧
  (∀ s : State, s.assertReset.run = .running ∧ s.assertReset.halted = false) ∧
  ∀ s t : State, s.run = .halted → step s ≠ .next t

/-- The reset table of 70_reset_and_hazards section 1 (the spec's decisions D8, D9, D10, D19, D23, D27), for reset at
launch and for the reset input of 10_state section 5 (D31). That the image and the answers stay is R39 and log entry 10. -/
def Obligations.ResetGivesEveryElementItsResetValue : Prop :=
  (∀ s : State, s.assertReset = State.resetWith s.params s.imem s.answers) ∧
  ∀ p image answers, ∀ s, s = State.resetWith p image answers →
    s.pc = 0 ∧ s.sp = p.stackCap ∧ s.bp = p.stackCap - 1 ∧ s.ir = none ∧ s.run = .running ∧ s.halted = false
    ∧ s.err = none ∧ s.out = [] ∧ s.imem = image ∧ s.params = p ∧ s.answers = answers
    ∧ (p.initContent = .empty → (∀ r, s.rf.get r = none) ∧ ∀ a, s.cell a = none)
    ∧ (p.initContent = .zero → (∀ r, s.rf.get r = some 0) ∧ ∀ a, s.cell a = some 0)

/-- The invariant holds after reset, for every parameter set the spec admits and every program that fits; and at
`State.reset`, whose parameters are the model's choice (log entries 2 and 3). -/
def Obligations.ResetMeetsInvariant : Prop :=
  State.reset.Inv ∧
  ∀ p image answers, p.wf → image.length ≤ p.codeCap → (∀ q ∈ image, q.WellFormed p.wordBits) →
    (State.resetWith p image answers).Inv

/-- From every state that meets the invariant, reached or not, every step leads to one that does. -/
def Obligations.StepKeepsInvariant : Prop :=
  ∀ s t : State, s.Inv → step s = .next t → t.Inv

/-- 10_state section 2 (decision D12): SP lies in [0, STACK_CAP], from any state in which it does. -/
def Obligations.StepKeepsStackPointerInRange : Prop :=
  ∀ s t : State, 0 ≤ s.sp ∧ s.sp ≤ s.params.stackCap → step s = .next t →
    0 ≤ t.sp ∧ t.sp ≤ t.params.stackCap

/-- A launch (70_reset_and_hazards section 2, D31) succeeds exactly for admitted parameters and a program of words no
longer than CODE_CAP (00_scope R11), and gives the reset state. -/
def Obligations.LaunchAdmitsExactlyFittingPrograms : Prop :=
  ∀ p image answers s, launch p image answers = some s ↔
    p.wf ∧ image.length ≤ p.codeCap ∧ (∀ q ∈ image, q.WellFormed p.wordBits)
      ∧ s = State.resetWith p image answers

/-! ## Encoding and decoding -/

/-- Every instruction whose operands are 32-bit words survives the trip through its 128-bit table word, every operand
at every value. The layout of the word is the model's own (log entry 13); the fields and opcodes are the tables of
30_encoding sections 2 and 3. -/
def Obligations.DecodeOfEncodedTableWord : Prop :=
  ∀ i : Instr, i.wellFormed (.bounded 32) = true → decodeTableWord 128 (encodeTableWord i) = some i

/-- What decodes to what (30_encoding R73, R76 and sections 2 and 4): a quadruple decodes to `i` exactly when it
agrees with the encoding of `i` in the opcode and in every field the table of R73 gives a use for that opcode; the
fields it marks unused are ignored (D17). -/
def Obligations.DecodeReadsExactlyTheUsedFields : Prop :=
  ∀ (q : Quad) (i : Instr), decode q = .ok i ↔
    q.opcode = (encode i).opcode ∧
    (match i with
      | .rtn => True
      | .sysHalt => q.m = 3
      | .inc _ | .jmp _ => q.m = (encode i).m
      | .neg _ | .odd _ => q.r = (encode i).r
      | .lit _ _ | .jpc _ _ | .sysWrite _ | .sysRead _ => q.r = (encode i).r ∧ q.m = (encode i).m
      | .cal _ _ => q.l = (encode i).l ∧ q.m = (encode i).m
      | _ => q.r = (encode i).r ∧ q.l = (encode i).l ∧ q.m = (encode i).m)

/-- The encoding of a well-formed instruction fits program memory: every field is a word (30_encoding R71), for every
width the spec admits. -/
def Obligations.EncodingOfWellFormedInstructionFitsWords : Prop :=
  ∀ (b : WordBits) (i : Instr), b.admitted = true → i.wellFormed b = true → (encode i).WellFormed b

/-- A program of words decodes to well-formed instructions only, for every width. -/
def Obligations.DecodedInstructionIsWellFormed : Prop :=
  ∀ (b : WordBits) (q : Quad) (i : Instr), q.WellFormed b → decode q = .ok i → i.wellFormed b = true

/-- The decode checks after the opcode, in the order of 60_exceptions section 2 (decision D18): BAD_SYS (D16), the
register fields r, l, m where used (R80, D17), then the level (D14). -/
def Obligations.DecodeChecksInOrder : Prop :=
  ∀ q : Quad,
    (q.opcode = 9 → q.m ≠ 1 ∧ q.m ≠ 2 ∧ q.m ≠ 3 → decode q = .error ⟨.badSys, q.m⟩) ∧
    ((q.opcode ∈ ([1, 3, 4, 8, 10, 11, 12, 13, 14, 15, 16, 17, 18, 19, 20, 21, 22] : List Int)
        ∨ q.opcode = 9 ∧ (q.m = 1 ∨ q.m = 2)) →
      ¬ (0 ≤ q.r ∧ q.r ≤ 6) → decode q = .error ⟨.regIndex, q.r⟩) ∧
    (q.opcode ∈ ([11, 12, 13, 14, 16, 17, 18, 19, 20, 21, 22] : List Int) → 0 ≤ q.r ∧ q.r ≤ 6 →
      (¬ (0 ≤ q.l ∧ q.l ≤ 6) → decode q = .error ⟨.regIndex, q.l⟩) ∧
      (0 ≤ q.l ∧ q.l ≤ 6 → ¬ (0 ≤ q.m ∧ q.m ≤ 6) → decode q = .error ⟨.regIndex, q.m⟩)) ∧
    (q.opcode ∈ ([3, 4] : List Int) → 0 ≤ q.r ∧ q.r ≤ 6 → q.l < 0 → decode q = .error ⟨.negLevel, q.l⟩) ∧
    (q.opcode = 5 → q.l < 0 → decode q = .error ⟨.negLevel, q.l⟩)

/-- A few quadruples written out from the tables of 30_encoding R73 and R76. -/
def Obligations.SampleQuadruplesDecode : Prop :=
  decode ⟨1, 3, 0, -7⟩ = .ok (.lit 3 (-7)) ∧ decode ⟨3, 0, 2, 3⟩ = .ok (.lod 0 2 3)
    ∧ decode ⟨5, 9, 1, 1⟩ = .ok (.cal 1 1) ∧ decode ⟨9, 7, 0, 3⟩ = .ok .sysHalt
    ∧ decode ⟨12, 0, 1, 2⟩ = .ok (.sub 0 1 2) ∧ decode ⟨22, 6, 5, 4⟩ = .ok (.geq 6 5 4)

/-! ## The step -/

/-- 30_encoding section 5: in Running, the quadruple at PC is fetched into IR, PC advances by one, and the decoded
instruction is executed on that state. -/
def Obligations.StepRunsTheDecodedInstruction : Prop :=
  ∀ (s : State) (q : Quad) (i : Instr), s.run = .running → s.fetches q → decode q = .ok i →
    step s = exec i { s with ir := some q, pc := s.pc + 1 }

/-- 30_encoding section 5 (decision D15): a fetch outside the program raises PC_RANGE and records no instruction. -/
def Obligations.FetchOutsideTheProgramFaults : Prop :=
  ∀ s : State, s.run = .running → s.pc < 0 ∨ (s.imem.length : Int) ≤ s.pc →
    step s = .next { s with run := .faulted, err := some ⟨.pcRange, s.pc, none, s.pc⟩ }

/-- 30_encoding R78: every opcode outside [1, 22] is a DecodeError with cause BAD_OPCODE that carries the opcode, reported
with the state as it was, and fatal. What IR holds afterwards is left open (log entry 7). -/
def Obligations.BadOpcodeIsFatalDecodeError : Prop :=
  (∀ q : Quad, q.opcode < 1 ∨ 22 < q.opcode → decode q = .error ⟨.badOpcode, q.opcode⟩) ∧
  ∀ (s : State) (q : Quad), s.run = .running → s.fetches q → q.opcode < 1 ∨ 22 < q.opcode →
    ∃ t e, step s = .next t ∧ t = { s with ir := t.ir, run := .faulted, err := some e }
      ∧ e.kind = .decodeError ∧ e.cause = .badOpcode ∧ e.info = q.opcode ∧ ∀ u, step t ≠ .next u

/-- The other decode errors abort the same way (60_exceptions section 2, D19): the state before the instruction, with
the record of the failing quadruple. IR is left open (log entry 7). -/
def Obligations.DecodeErrorAbortsTheStep : Prop :=
  ∀ (s : State) (q : Quad) (e : Raise), s.run = .running → s.fetches q → decode q = .error e →
    ∃ t, step s = .next t ∧
      t = { s with ir := t.ir, run := .faulted, err := some ⟨e.cause, s.pc, some q, e.info⟩ }

/-- 60_exceptions section 2 (decision D19) over every instruction and every cause: a step that ends Faulted has changed
nothing but the run state and the error record (IR and the consumed console answer are left open, log entries 6 and 7),
PC is the failing index, the halt flag is false, the record names that index and the quadruple there (none for
PC_RANGE), and there is no observation; a step that does not fault leaves the record alone. -/
def Obligations.FaultIsPrecise : Prop :=
  ∀ s t : State, s.Inv → step s = .next t →
    (t.run = .faulted →
      t = { s with ir := t.ir, answers := t.answers, run := .faulted, err := t.err } ∧ t.halted = false
      ∧ stepObservation s = none
      ∧ ∃ e, t.err = some e ∧ e.pc = s.pc
        ∧ (e.cause = .pcRange → e.insn = none ∧ e.info = s.pc)
        ∧ (e.cause ≠ .pcRange → ∃ q, e.insn = some q ∧ s.fetches q)) ∧
    (t.run ≠ .faulted → t.err = s.err)

/-- 60_exceptions R139: the causes of DecodeError are BAD_OPCODE and BAD_SYS; decoding alone raises it, with the state as
it was (IR left open, log entry 7), and no instruction raises it at execute. -/
def Obligations.DecodeErrorComesFromDecodeAlone : Prop :=
  (∀ c : Cause, c.kind = .decodeError ↔ c = .badOpcode ∨ c = .badSys) ∧
  (∀ (s t : State) (e : ErrRecord), s.run = .running → step s = .next t → t.run = .faulted → t.err = some e →
    e.kind = .decodeError →
    (∃ q, s.fetches q ∧ decode q = .error ⟨e.cause, e.info⟩)
      ∧ t = { s with ir := t.ir, run := .faulted, err := some e }) ∧
  ∀ (i : Instr) (s t : State) (e : ErrRecord), s.run = .running → exec i s = .next t → t.run = .faulted →
    t.err = some e → e.kind ≠ .decodeError

/-- Which instruction raises which kind at execute (60_exceptions R140 to R143, decisions D2, D10, D12, D22): overflow
comes from the six checked operations, DIV_ZERO from DIV, MOD_ZERO from MOD; addressing errors from the instructions that
touch the stack or move SP; IO errors from SYS read; and an unwritten read only from an instruction that reads a register
or a cell, and only under EMPTY. -/
def Obligations.ErrorKindsComeFromTheirInstructions : Prop :=
  ∀ (i : Instr) (s t : State) (e : ErrRecord), s.Inv → s.run = .running → exec i s = .next t → t.run = .faulted →
    t.err = some e →
    (e.cause = .divZero → ∃ r a b, i = .div r a b) ∧
    (e.cause = .modZero → ∃ r a b, i = .mod r a b) ∧
    (e.cause = .overflow →
      (∃ r, i = .neg r) ∨ ∃ r a b, i ∈ [Instr.add r a b, .sub r a b, .mul r a b, .div r a b, .mod r a b]) ∧
    (e.kind = .addressingError →
      i = .rtn ∨ (∃ n, i = .inc n) ∨ (∃ l m, i = .cal l m) ∨ (∃ r l m, i = .lod r l m) ∨ ∃ r l m, i = .sto r l m) ∧
    (e.kind = .ioError → ∃ r, i = .sysRead r) ∧
    (e.kind = .unwrittenReadError → s.params.initContent = .empty
      ∧ (∀ r v, i ≠ .lit r v) ∧ (∀ n, i ≠ .inc n) ∧ (∀ m, i ≠ .jmp m) ∧ (∀ r, i ≠ .sysRead r) ∧ i ≠ .sysHalt)

/-- 30_encoding R91: once the run state is Halted, or Faulted, no further step occurs. -/
def Obligations.NoStepAfterHaltOrFault : Prop :=
  ∀ s t : State, s.run = .halted ∨ s.run = .faulted → step s ≠ .next t

/-- 10_state R32: the halt flag equals run = Halted, is false after reset, is set by SYS halt alone, ends the run and
stays until reset; a fatal error leaves it false; and while the engine is Running the loop goes on. -/
def Obligations.OnlySysHaltSetsTheHaltFlag : Prop :=
  (∀ s : State, s.halted = true ↔ s.run = .halted) ∧
  (∀ p image answers, (State.resetWith p image answers).halted = false) ∧
  (∀ s : State, s.assertReset.halted = false) ∧
  (∀ s t : State, s.halted = true → step s ≠ .next t) ∧
  (∀ s : State, s.run = .running → ∃ t, step s = .next t) ∧
  ∀ s t : State, step s = .next t →
    (t.halted = true ↔ s.run = .running ∧ ∃ q, s.fetches q ∧ decode q = .ok .sysHalt) ∧
    (t.run = .faulted → t.halted = false)

/-- 70_reset_and_hazards section 4: a step in Running always has a next state, and it waits only for a SYS read the host
has not answered. -/
def Obligations.RunningEngineAlwaysSteps : Prop :=
  ∀ s : State, s.run = .running → ∃ t, step s = .next t ∧
    (t.run = .waitInput ↔ s.answers = [] ∧ ∃ q r, s.fetches q ∧ decode q = .ok (.sysRead r))

/-- 30_encoding section 5, SYS read (decisions D22, D27): unanswered, the read enters WaitInput with PC at its index and
IR holding it; WaitInput holds while there is no answer; with an answer the step resumes and ends exactly as a read that
found the answer at once. -/
def Obligations.SysReadWaitsHoldsAndResumes : Prop :=
  ∀ (s : State) (q : Quad) (r : Reg), s.fetches q → decode q = .ok (.sysRead r) →
    (s.run = .running → s.answers = [] → step s = .next { s with ir := some q, run := .waitInput }) ∧
    (s.run = .waitInput → s.answers = [] → step s = .next s) ∧
    (∀ a rest, s.run = .waitInput → s.ir = some q → s.answers = a :: rest →
      step s = step { s with run := .running })

/-- The observation port (10_state section 5, decision D26): a committed step, of the Running engine or a read that
resumes from WaitInput, shows the executed quadruple and the pointers, registers and live stack it leaves; a step that
faults, waits or does not occur shows nothing. -/
def Obligations.ObservationOfEveryCommittedStep : Prop :=
  (∀ s t : State, ∀ q, s.run = .running ∧ s.fetches q ∨ s.run = .waitInput ∧ s.ir = some q → step s = .next t →
    t.run = .running ∨ t.run = .halted →
    ∃ o, stepObservation s = some o ∧ o.insn = q ∧ o.pc = t.pc ∧ o.bp = t.bp ∧ o.sp = t.sp ∧ o.rf = t.rf
      ∧ ∀ a c, (a, c) ∈ o.live ↔ a < t.params.stackCap ∧ t.sp ≤ a ∧ c = t.cell a) ∧
  (∀ s t : State, step s = .next t → t.run = .faulted ∨ t.run = .waitInput → stepObservation s = none) ∧
  ∀ s : State, s.run = .halted ∨ s.run = .faulted → stepObservation s = none

/-! ## Rules of the whole machine -/

/-- 10_state R37 and 20_memory R63: the program is the image the host supplied; it stays through every step and reset; no
instruction writes it or looks at it; a step looks at it only for the quadruple at PC, and a waiting engine not at all. -/
def Obligations.ProgramIsOnlyFetched : Prop :=
  (∀ p image answers, (State.resetWith p image answers).imem = image) ∧
  (∀ s : State, s.assertReset.imem = s.imem) ∧
  (∀ s t : State, step s = .next t → t.imem = s.imem) ∧
  (∀ (i : Instr) (s t : State) (image : List Quad), exec i s = .next t →
    t.imem = s.imem ∧ exec i { s with imem := image } = .next { t with imem := image }) ∧
  (∀ (s t : State) (image : List Quad), s.run = .waitInput → step s = .next t →
    step { s with imem := image } = .next { t with imem := image }) ∧
  ∀ (s t : State) (q : Quad) (image : List Quad), s.run = .running → s.fetches q → image[s.pc.toNat]? = some q →
    step s = .next t → step { s with imem := image } = .next { t with imem := image }

/-- 10_state R47: the next state depends on the console answers only through the one answer a SYS read takes: other steps
ignore them, and a read, at once or after a wait, looks at no answer but the first and consumes it. That an aborted read
consumes its answer too is log entry 6. -/
def Obligations.NextStateDependsOnAtMostOneAnswer : Prop :=
  (∀ (s t : State) (answers : List Answer), s.run = .running →
    (∀ q r, s.fetches q → decode q ≠ .ok (.sysRead r)) → step s = .next t →
    step { s with answers := answers } = .next { t with answers := answers }) ∧
  (∀ (s t : State) (q : Quad) (r : Reg) (a : Answer) (rest rest' : List Answer), s.run = .running → s.fetches q →
    decode q = .ok (.sysRead r) → s.answers = a :: rest → step s = .next t →
    t.answers = rest ∧ step { s with answers := a :: rest' } = .next { t with answers := rest' }) ∧
  ∀ (s t : State) (a : Answer) (rest rest' : List Answer), s.run = .waitInput → s.answers = a :: rest →
    step s = .next t → t.answers = rest ∧ step { s with answers := a :: rest' } = .next { t with answers := rest' }

/-- The output log (10_state section 4, decision D23) is appended to by SYS write alone, one event a step, and no step
reads it. -/
def Obligations.OutputLogOnlyGrowsBySysWrite : Prop :=
  ∀ s t : State, step s = .next t →
    (t.out = s.out ∨ s.run = .running ∧ ∃ q r v, s.fetches q ∧ decode q = .ok (.sysWrite r)
      ∧ s.rf.get r = some v ∧ t.out = s.out ++ [⟨r, v⟩]) ∧
    ∀ log, ∃ new, t.out = s.out ++ new ∧ step { s with out := log } = .next { t with out := log ++ new }

/-- SP and BP (10_state section 2): only INC and RTN write SP and only INC and CAL read it; only CAL and RTN write BP and
only LOD, STO, CAL and RTN read it. -/
def Obligations.PointerRegistersTouchedOnlyByTheirInstructions : Prop :=
  ∀ (i : Instr) (s t : State), exec i s = .next t →
    (i ≠ .rtn → (∀ n, i ≠ .inc n) → t.sp = s.sp) ∧
    (i ≠ .rtn → (∀ l m, i ≠ .cal l m) → t.bp = s.bp) ∧
    (i ≠ .rtn → (∀ n, i ≠ .inc n) → (∀ l m, i ≠ .cal l m) → ∀ v,
      exec i { s with sp := v } = .next { t with sp := v }) ∧
    (i = .rtn → t.run ≠ .faulted → ∀ v, exec i { s with sp := v } = .next t) ∧
    (i ≠ .rtn → (∀ l m, i ≠ .cal l m) → (∀ r l m, i ≠ .lod r l m) → (∀ r l m, i ≠ .sto r l m) → ∀ v,
      exec i { s with bp := v } = .next { t with bp := v })

/-- Only LOD, STO, CAL and RTN touch the stack memory (20_memory section 1): every other instruction leaves every cell
and does not depend on any. -/
def Obligations.StackMemoryTouchedOnlyByItsInstructions : Prop :=
  ∀ (i : Instr) (s t : State), i ≠ .rtn → (∀ l m, i ≠ .cal l m) → (∀ r l m, i ≠ .lod r l m) →
    (∀ r l m, i ≠ .sto r l m) → exec i s = .next t →
    (∀ a, t.cell a = s.cell a) ∧ ∀ mem, exec i { s with st := mem } = .next { t with st := mem }

/-- A register or cell that holds a word never becomes empty again (10_state sections 1 and 4: empty only until first
written). -/
def Obligations.WrittenNeverBecomesEmpty : Prop :=
  ∀ s t : State, step s = .next t →
    (∀ r, (s.rf.get r).isSome = true → (t.rf.get r).isSome = true) ∧
    ∀ a, (s.cell a).isSome = true → (t.cell a).isSome = true

/-- 60_exceptions section 1 (decision D10): under ZERO no step ends in an UnwrittenReadError. -/
def Obligations.NoUnwrittenReadErrorUnderZero : Prop :=
  ∀ (s t : State) (e : ErrRecord), s.Inv → s.params.initContent = .zero → step s = .next t → t.err = some e →
    s.run ≠ .faulted → e.kind ≠ .unwrittenReadError

/-! ## The address resolver -/

/-- 20_memory R55: what the resolver computes. It answers `c` exactly when a chain of `l` hops through existing cells
that hold words leads from `b` to `c`; with level 0 that is `b` itself, whatever `b` is. -/
def Obligations.ResolverWalksTheStaticLinkChain : Prop :=
  ∀ (s : State) (l : Nat) (b c : Int), s.resolve l b = .ok c ↔
    ∃ hop : Nat → Int, hop 0 = b ∧ hop l = c ∧
      ∀ k, k < l → s.inArray (hop k) ∧ s.cell (hop k).toNat = some (hop (k + 1))

/-- When the resolver raises (20_memory section 3, decision D11): exactly at the first hop whose address lies outside
the array (RESOLVE_RANGE) or whose cell is empty (CELL_UNWRITTEN), with that address. -/
def Obligations.ResolverRaisesAtTheFirstFailingHop : Prop :=
  ∀ (s : State) (l : Nat) (b : Int) (e : Raise), s.resolve l b = .error e ↔
    ∃ k c, k < l ∧ s.resolve k b = .ok c ∧
      (¬ s.inArray c ∧ e = ⟨.resolveRange, c⟩ ∨ s.inArray c ∧ s.cell c.toNat = none ∧ e = ⟨.cellUnwritten, c⟩)

/-- 20_memory section 3: after a CAL of level `l`, one hop from the new base gives the frame `l` levels out from the
caller, and the base itself is SP - 1. -/
def Obligations.CallLinksTheEnclosingFrame : Prop :=
  ∀ (s t : State) (l : Nat) (m : Int), exec (.cal l m) s = .next t → t.run ≠ .faulted →
    t.bp = s.sp - 1 ∧ t.resolve 1 t.bp = s.resolve l s.bp ∧ ∃ c, s.resolve l s.bp = .ok c

/-! ## LIT, LOD, STO -/

/-- 41_load_store R96: what a quadruple with opcode 1 decodes to, its only error; the register takes the immediate
unchanged, whatever it held; nothing else changes but PC, which is idx + 1 (and IR, the quadruple). -/
def Obligations.LitLoadsItsImmediate : Prop :=
  (∀ r l m : Int,
    (∀ k : Reg, (k.val : Int) = r → decode ⟨1, r, l, m⟩ = .ok (.lit k m)) ∧
    (¬ (0 ≤ r ∧ r ≤ 6) → decode ⟨1, r, l, m⟩ = .error ⟨.regIndex, r⟩)) ∧
  (∀ (r : Reg) (v : Int) (s : State), exec (.lit r v) s = .next { s with rf := s.rf.set r (some v) }) ∧
  ∀ (s : State) (k : Reg) (l m : Int), s.run = .running → s.fetches ⟨1, (k.val : Int), l, m⟩ →
    step s = .next { s with ir := some ⟨1, (k.val : Int), l, m⟩, pc := s.pc + 1, rf := s.rf.set k (some m) }

/-- 41_load_store R97 at execute: LOD writes the word at resolve(l, BP) - m to RF[r] and changes nothing else; its
errors are those of the walk, then STACK_RANGE, then CELL_UNWRITTEN. The error equations give the whole aborted
state: everything but run state, record and PC stays (decision D19), IR too (log entry 7). -/
def Obligations.LodLoadsTheResolvedCell : Prop :=
  ∀ (s : State) (r : Reg) (l : Nat) (m : Int),
    (∀ e, s.resolve l s.bp = .error e → exec (.lod r l m) s = .next (s.raise e)) ∧
    ∀ b, s.resolve l s.bp = .ok b →
      (¬ s.inArray (b - m) → exec (.lod r l m) s = .next (s.raise ⟨.stackRange, b - m⟩)) ∧
      (s.inArray (b - m) → s.cell (b - m).toNat = none →
        exec (.lod r l m) s = .next (s.raise ⟨.cellUnwritten, b - m⟩)) ∧
      ∀ v, s.inArray (b - m) → s.cell (b - m).toNat = some v →
        exec (.lod r l m) s = .next { s with rf := s.rf.set r (some v) }

/-- 41_load_store section of STO (evaluation order by decision D21): STO writes RF[r] to the cell at resolve(l, BP)
- m and leaves every other cell and everything else; its errors are those of the walk, STACK_RANGE, REG_UNWRITTEN.
The error equations give the whole aborted state: everything but run state, record and PC stays (decision D19), IR
too (log entry 7). -/
def Obligations.StoStoresToTheResolvedCell : Prop :=
  ∀ (s : State) (r : Reg) (l : Nat) (m : Int),
    (∀ e, s.resolve l s.bp = .error e → exec (.sto r l m) s = .next (s.raise e)) ∧
    ∀ b, s.resolve l s.bp = .ok b →
      (¬ s.inArray (b - m) → exec (.sto r l m) s = .next (s.raise ⟨.stackRange, b - m⟩)) ∧
      (s.inArray (b - m) → s.rf.get r = none →
        exec (.sto r l m) s = .next (s.raise ⟨.regUnwritten, (r.val : Int)⟩)) ∧
      ∀ v, s.inArray (b - m) → s.rf.get r = some v →
        ∃ t, exec (.sto r l m) s = .next t ∧ t = { s with st := t.st } ∧ t.cell (b - m).toNat = some v
          ∧ ∀ a, a ≠ (b - m).toNat → t.cell a = s.cell a

/-- The frame of STO on every outcome: no register, pointer or output changes, and every cell but the one at its
effective address reads as before; when there is no effective address, or the STO faults, every cell does. That IR stays
when it faults is log entry 7. -/
def Obligations.StoFrame : Prop :=
  ∀ (s t : State) (r : Reg) (l : Nat) (m : Int), exec (.sto r l m) s = .next t →
    t.rf = s.rf ∧ t.sp = s.sp ∧ t.bp = s.bp ∧ t.out = s.out ∧ t.imem = s.imem ∧ t.answers = s.answers
      ∧ t.params = s.params ∧ t.ir = s.ir ∧ (t.run ≠ .faulted → t.err = s.err) ∧
    (∀ ea, s.effectiveAddress l m = .ok ea → ∀ a, a ≠ ea.toNat → t.cell a = s.cell a) ∧
    (∀ e, s.effectiveAddress l m = .error e → ∀ a, t.cell a = s.cell a) ∧
    (s.run ≠ .faulted → t.run = .faulted → ∀ a, t.cell a = s.cell a)

/-- 20_memory section 6: a LOD that follows a STO to the same address, at whatever levels and offsets the two name it,
reads the word stored; at level 0 with one offset the address is always the same. -/
def Obligations.LoadAfterStoreGivesTheWordStored : Prop :=
  (∀ (s t : State) (r q : Reg) (l k : Nat) (m n ea : Int), s.run = .running → exec (.sto r l m) s = .next t →
    t.run = .running → s.effectiveAddress l m = .ok ea → t.effectiveAddress k n = .ok ea →
    exec (.lod q k n) t = .next { t with rf := t.rf.set q (s.rf.get r) }) ∧
  ∀ (s t : State) (r q : Reg) (m : Int), s.run = .running → exec (.sto r 0 m) s = .next t → t.run = .running →
    exec (.lod q 0 m) t = .next { t with rf := t.rf.set q (s.rf.get r) }

/-! ## RTN, CAL, INC -/

/-- 42_activation, RTN (evaluation order by decision D21): with the two link cells in place it sets SP, BP and PC
and nothing else; its errors are SP_RANGE (D12), then those of the dynamic link, then those of the return address.
The error equations give the whole aborted state: everything but run state, record and PC stays (decision D19), IR
too (log entry 7). -/
def Obligations.RtnRestoresTheCaller : Prop :=
  ∀ s : State,
    (¬ (0 ≤ s.bp + 1 ∧ s.bp + 1 ≤ s.params.stackCap) → exec .rtn s = .next (s.raise ⟨.spRange, s.bp + 1⟩)) ∧
    (0 ≤ s.bp + 1 ∧ s.bp + 1 ≤ s.params.stackCap →
      (¬ s.inArray (s.bp - 1) → exec .rtn s = .next (s.raise ⟨.stackRange, s.bp - 1⟩)) ∧
      (s.inArray (s.bp - 1) → s.cell (s.bp - 1).toNat = none →
        exec .rtn s = .next (s.raise ⟨.cellUnwritten, s.bp - 1⟩)) ∧
      ∀ dl, s.inArray (s.bp - 1) → s.cell (s.bp - 1).toNat = some dl →
        (¬ s.inArray (s.bp - 2) → exec .rtn s = .next (s.raise ⟨.stackRange, s.bp - 2⟩)) ∧
        (s.inArray (s.bp - 2) → s.cell (s.bp - 2).toNat = none →
          exec .rtn s = .next (s.raise ⟨.cellUnwritten, s.bp - 2⟩)) ∧
        ∀ ra, s.inArray (s.bp - 2) → s.cell (s.bp - 2).toNat = some ra →
          exec .rtn s = .next { s with sp := s.bp + 1, bp := dl, pc := ra })

/-- 42_activation, CAL (evaluation order by decision D21): it writes static link, dynamic link and return address at
SP - 1, SP - 2, SP - 3, then BP and PC, and leaves every other cell, SP, and the rest; its errors are those of the
walk, then STACK_RANGE at the first of the three addresses below 0. The error equations give the whole aborted
state: everything but run state, record and PC stays (decision D19), IR too (log entry 7). -/
def Obligations.CalBuildsTheFrame : Prop :=
  ∀ (s : State) (l : Nat) (m : Int),
    (∀ e, s.resolve l s.bp = .error e → exec (.cal l m) s = .next (s.raise e)) ∧
    ∀ c, s.resolve l s.bp = .ok c → s.sp ≤ s.params.stackCap →
      (s.sp < 1 → exec (.cal l m) s = .next (s.raise ⟨.stackRange, s.sp - 1⟩)) ∧
      (s.sp = 1 → exec (.cal l m) s = .next (s.raise ⟨.stackRange, s.sp - 2⟩)) ∧
      (s.sp = 2 → exec (.cal l m) s = .next (s.raise ⟨.stackRange, s.sp - 3⟩)) ∧
      (3 ≤ s.sp → ∃ t, exec (.cal l m) s = .next t ∧ t = { s with st := t.st, bp := s.sp - 1, pc := m }
        ∧ t.cell (s.sp - 1).toNat = some c ∧ t.cell (s.sp - 2).toNat = some s.bp
        ∧ t.cell (s.sp - 3).toNat = some s.pc
        ∧ ∀ a, a ≠ (s.sp - 1).toNat → a ≠ (s.sp - 2).toNat → a ≠ (s.sp - 3).toNat → t.cell a = s.cell a)

/-- The frame of CAL on every outcome: registers, SP and output stay, and every cell but the three below SP. That IR
stays when the instruction faults is log entry 7. -/
def Obligations.CalFrame : Prop :=
  ∀ (s t : State) (l : Nat) (m : Int), exec (.cal l m) s = .next t →
    t.rf = s.rf ∧ t.sp = s.sp ∧ t.out = s.out ∧ t.imem = s.imem ∧ t.answers = s.answers ∧ t.params = s.params
      ∧ t.ir = s.ir ∧ (t.run ≠ .faulted → t.err = s.err) ∧
    ∀ a : Nat, (a : Int) ≠ s.sp - 1 → (a : Int) ≠ s.sp - 2 → (a : Int) ≠ s.sp - 3 → t.cell a = s.cell a

/-- 42_activation, INC (decision D12): SP moves by the count, and nothing else; out of [0, STACK_CAP] it raises
SP_RANGE with the rejected value. The error equations give the whole aborted state: everything but run state, record
and PC stays (decision D19), IR too (log entry 7). -/
def Obligations.IncMovesTheStackPointer : Prop :=
  ∀ (s : State) (m : Int),
    (0 ≤ s.sp - m ∧ s.sp - m ≤ s.params.stackCap → exec (.inc m) s = .next { s with sp := s.sp - m }) ∧
    (¬ (0 ≤ s.sp - m ∧ s.sp - m ≤ s.params.stackCap) → exec (.inc m) s = .next (s.raise ⟨.spRange, s.sp - m⟩))

/-- 42_activation R105: whatever ran between a CAL and an RTN, if the RTN finds BP and the two link cells as the CAL
left them, SP and BP are those before the CAL and PC is the return address. -/
def Obligations.ReturnUndoesTheCall : Prop :=
  ∀ (s t u : State) (l : Nat) (m : Int), s.sp ≤ s.params.stackCap → exec (.cal l m) s = .next t → t.run ≠ .faulted →
    u.params = t.params → u.bp = t.bp → u.cell (s.sp - 2).toNat = t.cell (s.sp - 2).toNat →
    u.cell (s.sp - 3).toNat = t.cell (s.sp - 3).toNat →
    exec .rtn u = .next { u with sp := s.sp, bp := s.bp, pc := s.pc }

/-! ## JMP, JPC and control transfers -/

/-- 43_jump R109: every quadruple with opcode 7 is JMP; PC takes the target unchecked and nothing else changes; the next
step runs the instruction there, or raises PC_RANGE with the target when there is none; a jump to itself repeats. -/
def Obligations.JmpTakesItsTarget : Prop :=
  (∀ r l m : Int, decode ⟨7, r, l, m⟩ = .ok (.jmp m)) ∧
  (∀ (s : State) (m : Int), exec (.jmp m) s = .next { s with pc := m }) ∧
  (∀ (s t : State) (m : Int), s.run = .running → exec (.jmp m) s = .next t →
    (∀ q i, 0 ≤ m ∧ s.imem[m.toNat]? = some q → decode q = .ok i →
      step t = exec i { s with ir := some q, pc := m + 1 }) ∧
    (m < 0 ∨ (s.imem.length : Int) ≤ m →
      ∃ u e, step t = .next u ∧ u.run = .faulted ∧ u.err = some e ∧ e.cause = .pcRange ∧ e.info = m)) ∧
  ∀ (s : State) (r l : Int), s.run = .running → s.fetches ⟨7, r, l, s.pc⟩ →
    step s = .next { s with ir := some ⟨7, r, l, s.pc⟩ }

/-- 43_jump R110: what a quadruple with opcode 8 decodes to; the jump is taken exactly when RF[r] is 0, and a fall-through
changes nothing; an empty register raises REG_UNWRITTEN; a taken jump out of the program raises PC_RANGE with the target
at the next fetch. -/
def Obligations.JpcJumpsExactlyOnZero : Prop :=
  (∀ r l m : Int,
    (∀ k : Reg, (k.val : Int) = r → decode ⟨8, r, l, m⟩ = .ok (.jpc k m)) ∧
    (¬ (0 ≤ r ∧ r ≤ 6) → decode ⟨8, r, l, m⟩ = .error ⟨.regIndex, r⟩)) ∧
  ∀ (s : State) (r : Reg) (m : Int),
    (s.rf.get r = some 0 → exec (.jpc r m) s = .next { s with pc := m }) ∧
    (∀ v, s.rf.get r = some v → v ≠ 0 → exec (.jpc r m) s = .next s) ∧
    (s.rf.get r = none → ∃ t e, exec (.jpc r m) s = .next t ∧ t.run = .faulted ∧ t.err = some e
      ∧ e.kind = .unwrittenReadError ∧ e.cause = .regUnwritten ∧ e.info = (r.val : Int)) ∧
    ∀ t, s.run = .running → s.rf.get r = some 0 → m < 0 ∨ (s.imem.length : Int) ≤ m → exec (.jpc r m) s = .next t →
      ∃ u e, step t = .next u ∧ u.run = .faulted ∧ u.err = some e ∧ e.cause = .pcRange ∧ e.info = m

/-- 30_encoding R87: every transfer writes its literal target, RTN the stored word, and the next fetch is there. -/
def Obligations.TransfersWriteTheirLiteralTarget : Prop :=
  (∀ (s t : State) (i : Instr) (m : Int), s.run = .running → exec i s = .next t → t.run = .running →
    (i = .jmp m ∨ (∃ r, i = .jpc r m ∧ s.rf.get r = some 0) ∨ (∃ l, i = .cal l m)) → t.pc = m) ∧
  (∀ s t : State, s.run = .running → exec .rtn s = .next t → t.run = .running →
    s.cell (t.sp - 3).toNat = some t.pc) ∧
  (∀ (s t : State) (i : Instr), s.run = .running → exec i s = .next t → t.run = .running → t.pc ≠ s.pc →
    i = .rtn ∨ (∃ m, i = .jmp m) ∨ (∃ r m, i = .jpc r m) ∨ ∃ l m, i = .cal l m) ∧
  ∀ (t : State) (q : Quad) (i : Instr), t.run = .running → t.fetches q → decode q = .ok i →
    step t = exec i { t with ir := some q, pc := t.pc + 1 }

/-! ## SYS -/

/-- 44_system R113: what a quadruple with opcode 9 and m = 1 decodes to; the event (r, RF[r]) joins the log and nothing
else changes, so output never blocks; an empty register raises REG_UNWRITTEN; a step that faults keeps the log. -/
def Obligations.SysWriteEmitsItsRegister : Prop :=
  (∀ r l : Int,
    (∀ k : Reg, (k.val : Int) = r → decode ⟨9, r, l, 1⟩ = .ok (.sysWrite k)) ∧
    (¬ (0 ≤ r ∧ r ≤ 6) → decode ⟨9, r, l, 1⟩ = .error ⟨.regIndex, r⟩)) ∧
  (∀ (s : State) (r : Reg),
    (∀ v, s.rf.get r = some v → exec (.sysWrite r) s = .next { s with out := s.out ++ [⟨r, v⟩] }) ∧
    (s.rf.get r = none → ∃ t e, exec (.sysWrite r) s = .next t ∧ t.run = .faulted ∧ t.err = some e
      ∧ e.kind = .unwrittenReadError ∧ e.cause = .regUnwritten ∧ e.info = (r.val : Int) ∧ t.out = s.out)) ∧
  ∀ s t : State, step s = .next t → t.run = .faulted → t.out = s.out

/-- 44_system, SYS read (decision D22): with an answer that is a word it consumes the answer and writes RF[r]; with
none it waits; the two other answers are IO errors. That an aborted read consumes its answer too is log entry 6. The
error equations give the whole aborted state: everything but run state, record, PC and the consumed answer stays (decision D19), IR too
(log entry 7). -/
def Obligations.SysReadTakesOneAnswer : Prop :=
  ∀ (s : State) (r : Reg),
    (s.answers = [] → exec (.sysRead r) s = .next { s with run := .waitInput, pc := s.pc - 1 }) ∧
    ∀ rest,
      (∀ v, s.answers = .value v :: rest → s.isWord v →
        exec (.sysRead r) s = .next { s with rf := s.rf.set r (some v), answers := rest }) ∧
      (∀ v, s.answers = .value v :: rest → ¬ s.isWord v →
        exec (.sysRead r) s = .next (({ s with answers := rest } : State).raise ⟨.inputRange, v⟩)) ∧
      (s.answers = .unavailable :: rest →
        exec (.sysRead r) s = .next (({ s with answers := rest } : State).raise ⟨.inputUnavailable, 0⟩))

/-- 44_system, SYS halt: every quadruple with opcode 9 and m = 3 is SYS halt; it sets the halt flag and commits with PC =
idx + 1, and no step follows. That PC = idx + 1 is a derived remark of R115. -/
def Obligations.SysHaltStopsTheEngine : Prop :=
  (∀ r l : Int, decode ⟨9, r, l, 3⟩ = .ok .sysHalt) ∧
  (∀ s : State, exec .sysHalt s = .next { s with run := .halted }) ∧
  ∀ (s : State) (q : Quad), s.run = .running → s.fetches q → decode q = .ok .sysHalt →
    ∃ t, step s = .next t ∧ t = { s with ir := some q, pc := s.pc + 1, run := .halted } ∧ t.halted = true
      ∧ stepObservation s = t.observe ∧ ∀ u, step t ≠ .next u

/-! ## Arithmetic and relations -/

/-- 45_arithmetic, NEG, ADD, SUB, MUL: the exact result, written when it is a word and otherwise OVERFLOW with the
exact result (decision D2); nothing else changes. The error equations give the whole aborted state: everything but
run state, record and PC stays (decision D19), IR too (log entry 7). -/
def Obligations.NegAddSubMulAreExact : Prop :=
  (∀ (s : State) (r : Reg) (x : Int), s.rf.get r = some x →
    (s.isWord (-x) → exec (.neg r) s = .next { s with rf := s.rf.set r (some (-x)) }) ∧
    (¬ s.isWord (-x) → exec (.neg r) s = .next (s.raise ⟨.overflow, -x⟩))) ∧
  ∀ (s : State) (r a b : Reg) (x y : Int), s.rf.get a = some x → s.rf.get b = some y →
    ∀ i z, (i, z) ∈ [(Instr.add r a b, x + y), (Instr.sub r a b, x - y), (Instr.mul r a b, x * y)] →
      (s.isWord z → exec i s = .next { s with rf := s.rf.set r (some z) }) ∧
      (¬ s.isWord z → exec i s = .next (s.raise ⟨.overflow, z⟩))

/-- 45_arithmetic, DIV: the quotient truncated toward zero (decision D3), said by its defining property; a zero
divisor raises DIV_ZERO with the divisor's register index; a quotient that is no word raises OVERFLOW (D2). The
error equations give the whole aborted state: everything but run state, record and PC stays (decision D19), IR too
(log entry 7). -/
def Obligations.DivTruncatesTowardZero : Prop :=
  ∀ (s : State) (r a b : Reg) (x y : Int), s.rf.get a = some x → s.rf.get b = some y →
    (y = 0 → exec (.div r a b) s = .next (s.raise ⟨.divZero, (b.val : Int)⟩)) ∧
    ∀ k m : Int, y ≠ 0 → x = k * y + m → |m| < |y| → 0 ≤ m * x →
      (s.isWord k → exec (.div r a b) s = .next { s with rf := s.rf.set r (some k) }) ∧
      (¬ s.isWord k → exec (.div r a b) s = .next (s.raise ⟨.overflow, k⟩))

/-- 45_arithmetic, MOD: the remainder with the sign of the dividend (decision D3), said by its defining property; a
zero divisor raises MOD_ZERO; WORD_MIN by -1 raises OVERFLOW with WORD_MIN, unless the width is unbounded (D4). The
error equations give the whole aborted state: everything but run state, record and PC stays (decision D19), IR too
(log entry 7). -/
def Obligations.ModTakesTheDividendsSign : Prop :=
  ∀ (s : State) (r a b : Reg) (x y : Int), s.rf.get a = some x → s.rf.get b = some y →
    (y = 0 → exec (.mod r a b) s = .next (s.raise ⟨.modZero, (b.val : Int)⟩)) ∧
    (∀ n, s.params.wordBits = .bounded n → x = -((2 ^ (n - 1) : Nat) : Int) → y = -1 →
      exec (.mod r a b) s = .next (s.raise ⟨.overflow, x⟩)) ∧
    ∀ k m : Int, y ≠ 0 → x = k * y + m → |m| < |y| → 0 ≤ m * x →
      (s.params.wordBits = .unbounded ∨ (∃ n, s.params.wordBits = .bounded n ∧ x ≠ -((2 ^ (n - 1) : Nat) : Int)) ∨ y ≠ -1) →
      exec (.mod r a b) s = .next { s with rf := s.rf.set r (some m) }

/-- 45_arithmetic, ODD: 0 on an even value, 1 on a positive odd one, -1 on a negative odd one (decision D3); it
raises nothing but REG_UNWRITTEN. The error equations give the whole aborted state: everything but run state, record
and PC stays (decision D19), IR too (log entry 7). -/
def Obligations.OddWritesTheSignedParity : Prop :=
  ∀ (s : State) (r : Reg),
    (∀ x, s.rf.get r = some x →
      exec (.odd r) s = .next { s with rf := s.rf.set r (some (if 2 ∣ x then 0 else if 0 < x then 1 else -1)) }) ∧
    (s.rf.get r = none →
      exec (.odd r) s = .next (s.raise ⟨.regUnwritten, (r.val : Int)⟩) ∧
      exec (.neg r) s = .next (s.raise ⟨.regUnwritten, (r.val : Int)⟩))

/-- 45_arithmetic section of the exact results: whenever DIV and MOD of the same operands both complete, quotient times
divisor plus remainder is the dividend. -/
def Obligations.QuotientAndRemainderRecomposeTheDividend : Prop :=
  ∀ (s t u : State) (r q a b : Reg), exec (.div r a b) s = .next t → t.run ≠ .faulted →
    exec (.mod q a b) s = .next u → u.run ≠ .faulted →
    ∃ x y k m, s.rf.get a = some x ∧ s.rf.get b = some y ∧ t.rf.get r = some k ∧ u.rf.get q = some m
      ∧ k * y + m = x ∧ |m| < |y| ∧ 0 ≤ m * x

/-- 46_relational R130 to R135: each relation writes 1 when it holds of the two signed words and 0 when not, and changes
nothing else. -/
def Obligations.RelationsCompareSignedWords : Prop :=
  ∀ (s : State) (r a b : Reg) (x y : Int), s.rf.get a = some x → s.rf.get b = some y →
    ∀ i c, (i, c) ∈ [(Instr.eql r a b, decide (x = y)), (Instr.neq r a b, decide (x ≠ y)),
        (Instr.lss r a b, decide (x < y)), (Instr.leq r a b, decide (x ≤ y)), (Instr.gtr r a b, decide (y < x)),
        (Instr.geq r a b, decide (y ≤ x))] →
      exec i s = .next { s with rf := s.rf.set r (some (if c = true then 1 else 0)) }

/-- 46_relational R136: a relation of two words writes exactly 0 or 1; 0 when it is false, and a JPC on that register then
takes the jump; 1 when it is true, and the JPC falls through. -/
def Obligations.RelationsWriteZeroOrOne : Prop :=
  (∀ (s t : State) (r a b : Reg) (i : Instr),
    i ∈ [Instr.eql r a b, .neq r a b, .lss r a b, .leq r a b, .gtr r a b, .geq r a b] →
    exec i s = .next t → t.run ≠ .faulted → t.rf.get r = some 0 ∨ t.rf.get r = some 1) ∧
  ∀ (s : State) (r a b : Reg) (x y m : Int), s.rf.get a = some x → s.rf.get b = some y →
    ∀ i c, (i, c) ∈ [(Instr.eql r a b, decide (x = y)), (Instr.neq r a b, decide (x ≠ y)),
        (Instr.lss r a b, decide (x < y)), (Instr.leq r a b, decide (x ≤ y)), (Instr.gtr r a b, decide (y < x)),
        (Instr.geq r a b, decide (y ≤ x))] →
      ∃ t, exec i s = .next t ∧
        (c = false → t.rf.get r = some 0 ∧ exec (.jpc r m) t = .next { t with pc := m }) ∧
        (c = true → t.rf.get r = some 1 ∧ exec (.jpc r m) t = .next t)

/-- The two source reads of the eleven binary operations (45_arithmetic and 46_relational, the order by decision
D21): an empty first source is reported, else an empty second one, with its register index. The error equations give
the whole aborted state: everything but run state, record and PC stays (decision D19), IR too (log entry 7). -/
def Obligations.BinarySourcesAreReadInOrder : Prop :=
  ∀ (s : State) (r a b : Reg) (i : Instr),
    i ∈ [Instr.add r a b, .sub r a b, .mul r a b, .div r a b, .mod r a b, .eql r a b, .neq r a b, .lss r a b,
      .leq r a b, .gtr r a b, .geq r a b] →
    (s.rf.get a = none → exec i s = .next (s.raise ⟨.regUnwritten, (a.val : Int)⟩)) ∧
    (∀ x, s.rf.get a = some x → s.rf.get b = none → exec i s = .next (s.raise ⟨.regUnwritten, (b.val : Int)⟩))

/-! ## Frames -/

/-- The frame of every instruction that writes a register, on every outcome: all other registers, every cell, SP,
BP, IR, the output, the program and the parameters stay, PC stays unless the instruction faults or waits, and the
error record unless it faults. That IR stays when the instruction faults is log entry 7. -/
def Obligations.RegisterWritersFrame : Prop :=
  ∀ (s t : State) (r : Reg) (i : Instr),
    ((∃ v, i = .lit r v) ∨ (∃ l m, i = .lod r l m) ∨ i = .sysRead r ∨ i = .neg r ∨ i = .odd r
      ∨ ∃ a b, i ∈ [Instr.add r a b, .sub r a b, .mul r a b, .div r a b, .mod r a b, .eql r a b, .neq r a b,
        .lss r a b, .leq r a b, .gtr r a b, .geq r a b]) →
    exec i s = .next t →
    (∀ q, q ≠ r → t.rf.get q = s.rf.get q) ∧ (∀ a, t.cell a = s.cell a) ∧ t.sp = s.sp ∧ t.bp = s.bp ∧ t.ir = s.ir
      ∧ t.out = s.out ∧ t.imem = s.imem ∧ t.params = s.params ∧ (i ≠ .sysRead r → t.answers = s.answers)
      ∧ (t.run = s.run ∨ t.run = .faulted ∨ t.run = .waitInput)
      ∧ (t.run = s.run → s.run = .running → t.pc = s.pc) ∧ (t.run ≠ .faulted → t.err = s.err)

/-- The frame of the instructions that write neither a register nor a cell (RTN, INC, JMP, JPC, SYS write, SYS
halt), on every outcome: every register and every cell stays, and so do IR, the program, the answers and the
parameters; only SYS write touches the output; the error record stays unless the instruction faults. That IR stays
when the instruction faults is log entry 7. -/
def Obligations.ControlInstructionsFrame : Prop :=
  ∀ (s t : State) (i : Instr),
    (i = .rtn ∨ (∃ m, i = .inc m) ∨ (∃ m, i = .jmp m) ∨ (∃ r m, i = .jpc r m) ∨ (∃ r, i = .sysWrite r) ∨ i = .sysHalt) →
    exec i s = .next t →
    (∀ q, t.rf.get q = s.rf.get q) ∧ (∀ a, t.cell a = s.cell a) ∧ t.ir = s.ir ∧ t.imem = s.imem
      ∧ t.answers = s.answers ∧ t.params = s.params ∧ ((∀ r, i ≠ .sysWrite r) → t.out = s.out)
      ∧ (t.run ≠ .faulted → t.err = s.err)
end

