-- ==== Sys2Proof/Laws/State.lean ====
section
/-! SUPPORT. What each named update leaves in each field of the state. -/

namespace Sys2Proof.Machine

variable (s : State)

@[simp] theorem State.writeReg_params (r : Reg) (v : Int) : (s.writeReg r v).params = s.params := rfl
@[simp] theorem State.writeReg_rf (r : Reg) (v : Int) : (s.writeReg r v).rf = s.rf.set r (some v) := rfl
@[simp] theorem State.writeReg_st (r : Reg) (v : Int) : (s.writeReg r v).st = s.st := rfl
@[simp] theorem State.writeReg_pc (r : Reg) (v : Int) : (s.writeReg r v).pc = s.pc := rfl
@[simp] theorem State.writeReg_sp (r : Reg) (v : Int) : (s.writeReg r v).sp = s.sp := rfl
@[simp] theorem State.writeReg_bp (r : Reg) (v : Int) : (s.writeReg r v).bp = s.bp := rfl
@[simp] theorem State.writeReg_ir (r : Reg) (v : Int) : (s.writeReg r v).ir = s.ir := rfl
@[simp] theorem State.writeReg_run (r : Reg) (v : Int) : (s.writeReg r v).run = s.run := rfl
@[simp] theorem State.writeReg_err (r : Reg) (v : Int) : (s.writeReg r v).err = s.err := rfl
@[simp] theorem State.writeReg_out (r : Reg) (v : Int) : (s.writeReg r v).out = s.out := rfl
@[simp] theorem State.writeReg_imem (r : Reg) (v : Int) : (s.writeReg r v).imem = s.imem := rfl
@[simp] theorem State.writeReg_answers (r : Reg) (v : Int) : (s.writeReg r v).answers = s.answers := rfl

@[simp] theorem State.writeCell_params (a : Nat) (v : Int) : (s.writeCell a v).params = s.params := rfl
@[simp] theorem State.writeCell_rf (a : Nat) (v : Int) : (s.writeCell a v).rf = s.rf := rfl
@[simp] theorem State.writeCell_st (a : Nat) (v : Int) : (s.writeCell a v).st = Memory.write s.params.initial s.st a v := rfl
@[simp] theorem State.writeCell_pc (a : Nat) (v : Int) : (s.writeCell a v).pc = s.pc := rfl
@[simp] theorem State.writeCell_sp (a : Nat) (v : Int) : (s.writeCell a v).sp = s.sp := rfl
@[simp] theorem State.writeCell_bp (a : Nat) (v : Int) : (s.writeCell a v).bp = s.bp := rfl
@[simp] theorem State.writeCell_ir (a : Nat) (v : Int) : (s.writeCell a v).ir = s.ir := rfl
@[simp] theorem State.writeCell_run (a : Nat) (v : Int) : (s.writeCell a v).run = s.run := rfl
@[simp] theorem State.writeCell_err (a : Nat) (v : Int) : (s.writeCell a v).err = s.err := rfl
@[simp] theorem State.writeCell_out (a : Nat) (v : Int) : (s.writeCell a v).out = s.out := rfl
@[simp] theorem State.writeCell_imem (a : Nat) (v : Int) : (s.writeCell a v).imem = s.imem := rfl
@[simp] theorem State.writeCell_answers (a : Nat) (v : Int) : (s.writeCell a v).answers = s.answers := rfl

@[simp] theorem State.setPc_params (v : Int) : (s.setPc v).params = s.params := rfl
@[simp] theorem State.setPc_rf (v : Int) : (s.setPc v).rf = s.rf := rfl
@[simp] theorem State.setPc_st (v : Int) : (s.setPc v).st = s.st := rfl
@[simp] theorem State.setPc_pc (v : Int) : (s.setPc v).pc = v := rfl
@[simp] theorem State.setPc_sp (v : Int) : (s.setPc v).sp = s.sp := rfl
@[simp] theorem State.setPc_bp (v : Int) : (s.setPc v).bp = s.bp := rfl
@[simp] theorem State.setPc_ir (v : Int) : (s.setPc v).ir = s.ir := rfl
@[simp] theorem State.setPc_run (v : Int) : (s.setPc v).run = s.run := rfl
@[simp] theorem State.setPc_err (v : Int) : (s.setPc v).err = s.err := rfl
@[simp] theorem State.setPc_out (v : Int) : (s.setPc v).out = s.out := rfl
@[simp] theorem State.setPc_imem (v : Int) : (s.setPc v).imem = s.imem := rfl
@[simp] theorem State.setPc_answers (v : Int) : (s.setPc v).answers = s.answers := rfl

@[simp] theorem State.setSp_params (v : Int) : (s.setSp v).params = s.params := rfl
@[simp] theorem State.setSp_rf (v : Int) : (s.setSp v).rf = s.rf := rfl
@[simp] theorem State.setSp_st (v : Int) : (s.setSp v).st = s.st := rfl
@[simp] theorem State.setSp_pc (v : Int) : (s.setSp v).pc = s.pc := rfl
@[simp] theorem State.setSp_sp (v : Int) : (s.setSp v).sp = v := rfl
@[simp] theorem State.setSp_bp (v : Int) : (s.setSp v).bp = s.bp := rfl
@[simp] theorem State.setSp_ir (v : Int) : (s.setSp v).ir = s.ir := rfl
@[simp] theorem State.setSp_run (v : Int) : (s.setSp v).run = s.run := rfl
@[simp] theorem State.setSp_err (v : Int) : (s.setSp v).err = s.err := rfl
@[simp] theorem State.setSp_out (v : Int) : (s.setSp v).out = s.out := rfl
@[simp] theorem State.setSp_imem (v : Int) : (s.setSp v).imem = s.imem := rfl
@[simp] theorem State.setSp_answers (v : Int) : (s.setSp v).answers = s.answers := rfl

@[simp] theorem State.setBp_params (v : Int) : (s.setBp v).params = s.params := rfl
@[simp] theorem State.setBp_rf (v : Int) : (s.setBp v).rf = s.rf := rfl
@[simp] theorem State.setBp_st (v : Int) : (s.setBp v).st = s.st := rfl
@[simp] theorem State.setBp_pc (v : Int) : (s.setBp v).pc = s.pc := rfl
@[simp] theorem State.setBp_sp (v : Int) : (s.setBp v).sp = s.sp := rfl
@[simp] theorem State.setBp_bp (v : Int) : (s.setBp v).bp = v := rfl
@[simp] theorem State.setBp_ir (v : Int) : (s.setBp v).ir = s.ir := rfl
@[simp] theorem State.setBp_run (v : Int) : (s.setBp v).run = s.run := rfl
@[simp] theorem State.setBp_err (v : Int) : (s.setBp v).err = s.err := rfl
@[simp] theorem State.setBp_out (v : Int) : (s.setBp v).out = s.out := rfl
@[simp] theorem State.setBp_imem (v : Int) : (s.setBp v).imem = s.imem := rfl
@[simp] theorem State.setBp_answers (v : Int) : (s.setBp v).answers = s.answers := rfl

@[simp] theorem State.emit_params (r : Reg) (v : Int) : (s.emit r v).params = s.params := rfl
@[simp] theorem State.emit_rf (r : Reg) (v : Int) : (s.emit r v).rf = s.rf := rfl
@[simp] theorem State.emit_st (r : Reg) (v : Int) : (s.emit r v).st = s.st := rfl
@[simp] theorem State.emit_pc (r : Reg) (v : Int) : (s.emit r v).pc = s.pc := rfl
@[simp] theorem State.emit_sp (r : Reg) (v : Int) : (s.emit r v).sp = s.sp := rfl
@[simp] theorem State.emit_bp (r : Reg) (v : Int) : (s.emit r v).bp = s.bp := rfl
@[simp] theorem State.emit_ir (r : Reg) (v : Int) : (s.emit r v).ir = s.ir := rfl
@[simp] theorem State.emit_run (r : Reg) (v : Int) : (s.emit r v).run = s.run := rfl
@[simp] theorem State.emit_err (r : Reg) (v : Int) : (s.emit r v).err = s.err := rfl
@[simp] theorem State.emit_out (r : Reg) (v : Int) : (s.emit r v).out = s.out ++ [⟨r, v⟩] := rfl
@[simp] theorem State.emit_imem (r : Reg) (v : Int) : (s.emit r v).imem = s.imem := rfl
@[simp] theorem State.emit_answers (r : Reg) (v : Int) : (s.emit r v).answers = s.answers := rfl

@[simp] theorem State.halt_params : s.halt.params = s.params := rfl
@[simp] theorem State.halt_rf : s.halt.rf = s.rf := rfl
@[simp] theorem State.halt_st : s.halt.st = s.st := rfl
@[simp] theorem State.halt_pc : s.halt.pc = s.pc := rfl
@[simp] theorem State.halt_sp : s.halt.sp = s.sp := rfl
@[simp] theorem State.halt_bp : s.halt.bp = s.bp := rfl
@[simp] theorem State.halt_ir : s.halt.ir = s.ir := rfl
@[simp] theorem State.halt_run : s.halt.run = .halted := rfl
@[simp] theorem State.halt_err : s.halt.err = s.err := rfl
@[simp] theorem State.halt_out : s.halt.out = s.out := rfl
@[simp] theorem State.halt_imem : s.halt.imem = s.imem := rfl
@[simp] theorem State.halt_answers : s.halt.answers = s.answers := rfl

@[simp] theorem State.latch_params (q : Quad) : (s.latch q).params = s.params := rfl
@[simp] theorem State.latch_rf (q : Quad) : (s.latch q).rf = s.rf := rfl
@[simp] theorem State.latch_st (q : Quad) : (s.latch q).st = s.st := rfl
@[simp] theorem State.latch_pc (q : Quad) : (s.latch q).pc = s.pc + 1 := rfl
@[simp] theorem State.latch_sp (q : Quad) : (s.latch q).sp = s.sp := rfl
@[simp] theorem State.latch_bp (q : Quad) : (s.latch q).bp = s.bp := rfl
@[simp] theorem State.latch_ir (q : Quad) : (s.latch q).ir = some q := rfl
@[simp] theorem State.latch_run (q : Quad) : (s.latch q).run = s.run := rfl
@[simp] theorem State.latch_err (q : Quad) : (s.latch q).err = s.err := rfl
@[simp] theorem State.latch_out (q : Quad) : (s.latch q).out = s.out := rfl
@[simp] theorem State.latch_imem (q : Quad) : (s.latch q).imem = s.imem := rfl
@[simp] theorem State.latch_answers (q : Quad) : (s.latch q).answers = s.answers := rfl

@[simp] theorem State.wait_params : s.wait.params = s.params := rfl
@[simp] theorem State.wait_rf : s.wait.rf = s.rf := rfl
@[simp] theorem State.wait_st : s.wait.st = s.st := rfl
@[simp] theorem State.wait_pc : s.wait.pc = s.pc - 1 := rfl
@[simp] theorem State.wait_sp : s.wait.sp = s.sp := rfl
@[simp] theorem State.wait_bp : s.wait.bp = s.bp := rfl
@[simp] theorem State.wait_ir : s.wait.ir = s.ir := rfl
@[simp] theorem State.wait_run : s.wait.run = .waitInput := rfl
@[simp] theorem State.wait_err : s.wait.err = s.err := rfl
@[simp] theorem State.wait_out : s.wait.out = s.out := rfl
@[simp] theorem State.wait_imem : s.wait.imem = s.imem := rfl
@[simp] theorem State.wait_answers : s.wait.answers = s.answers := rfl

@[simp] theorem State.resumeRead_params : s.resumeRead.params = s.params := rfl
@[simp] theorem State.resumeRead_rf : s.resumeRead.rf = s.rf := rfl
@[simp] theorem State.resumeRead_st : s.resumeRead.st = s.st := rfl
@[simp] theorem State.resumeRead_pc : s.resumeRead.pc = s.pc + 1 := rfl
@[simp] theorem State.resumeRead_sp : s.resumeRead.sp = s.sp := rfl
@[simp] theorem State.resumeRead_bp : s.resumeRead.bp = s.bp := rfl
@[simp] theorem State.resumeRead_ir : s.resumeRead.ir = s.ir := rfl
@[simp] theorem State.resumeRead_run : s.resumeRead.run = .running := rfl
@[simp] theorem State.resumeRead_err : s.resumeRead.err = s.err := rfl
@[simp] theorem State.resumeRead_out : s.resumeRead.out = s.out := rfl
@[simp] theorem State.resumeRead_imem : s.resumeRead.imem = s.imem := rfl
@[simp] theorem State.resumeRead_answers : s.resumeRead.answers = s.answers := rfl

@[simp] theorem State.setAnswers_params (rest : List Answer) : (s.setAnswers rest).params = s.params := rfl
@[simp] theorem State.setAnswers_rf (rest : List Answer) : (s.setAnswers rest).rf = s.rf := rfl
@[simp] theorem State.setAnswers_st (rest : List Answer) : (s.setAnswers rest).st = s.st := rfl
@[simp] theorem State.setAnswers_pc (rest : List Answer) : (s.setAnswers rest).pc = s.pc := rfl
@[simp] theorem State.setAnswers_sp (rest : List Answer) : (s.setAnswers rest).sp = s.sp := rfl
@[simp] theorem State.setAnswers_bp (rest : List Answer) : (s.setAnswers rest).bp = s.bp := rfl
@[simp] theorem State.setAnswers_ir (rest : List Answer) : (s.setAnswers rest).ir = s.ir := rfl
@[simp] theorem State.setAnswers_run (rest : List Answer) : (s.setAnswers rest).run = s.run := rfl
@[simp] theorem State.setAnswers_err (rest : List Answer) : (s.setAnswers rest).err = s.err := rfl
@[simp] theorem State.setAnswers_out (rest : List Answer) : (s.setAnswers rest).out = s.out := rfl
@[simp] theorem State.setAnswers_imem (rest : List Answer) : (s.setAnswers rest).imem = s.imem := rfl
@[simp] theorem State.setAnswers_answers (rest : List Answer) : (s.setAnswers rest).answers = rest := rfl

@[simp] theorem State.takeError_params (idx : Int) (insn : Option Quad) (e : Raise) : (s.takeError idx insn e).params = s.params := rfl
@[simp] theorem State.takeError_rf (idx : Int) (insn : Option Quad) (e : Raise) : (s.takeError idx insn e).rf = s.rf := rfl
@[simp] theorem State.takeError_st (idx : Int) (insn : Option Quad) (e : Raise) : (s.takeError idx insn e).st = s.st := rfl
@[simp] theorem State.takeError_pc (idx : Int) (insn : Option Quad) (e : Raise) : (s.takeError idx insn e).pc = idx := rfl
@[simp] theorem State.takeError_sp (idx : Int) (insn : Option Quad) (e : Raise) : (s.takeError idx insn e).sp = s.sp := rfl
@[simp] theorem State.takeError_bp (idx : Int) (insn : Option Quad) (e : Raise) : (s.takeError idx insn e).bp = s.bp := rfl
@[simp] theorem State.takeError_ir (idx : Int) (insn : Option Quad) (e : Raise) : (s.takeError idx insn e).ir = s.ir := rfl
@[simp] theorem State.takeError_run (idx : Int) (insn : Option Quad) (e : Raise) : (s.takeError idx insn e).run = .faulted := rfl
@[simp] theorem State.takeError_err (idx : Int) (insn : Option Quad) (e : Raise) : (s.takeError idx insn e).err = some ⟨e.cause, idx, insn, e.info⟩ := rfl
@[simp] theorem State.takeError_out (idx : Int) (insn : Option Quad) (e : Raise) : (s.takeError idx insn e).out = s.out := rfl
@[simp] theorem State.takeError_imem (idx : Int) (insn : Option Quad) (e : Raise) : (s.takeError idx insn e).imem = s.imem := rfl
@[simp] theorem State.takeError_answers (idx : Int) (insn : Option Quad) (e : Raise) : (s.takeError idx insn e).answers = s.answers := rfl

@[simp] theorem State.raise_params (e : Raise) : (s.raise e).params = s.params := rfl
@[simp] theorem State.raise_rf (e : Raise) : (s.raise e).rf = s.rf := rfl
@[simp] theorem State.raise_st (e : Raise) : (s.raise e).st = s.st := rfl
@[simp] theorem State.raise_pc (e : Raise) : (s.raise e).pc = s.pc - 1 := rfl
@[simp] theorem State.raise_sp (e : Raise) : (s.raise e).sp = s.sp := rfl
@[simp] theorem State.raise_bp (e : Raise) : (s.raise e).bp = s.bp := rfl
@[simp] theorem State.raise_ir (e : Raise) : (s.raise e).ir = s.ir := rfl
@[simp] theorem State.raise_run (e : Raise) : (s.raise e).run = .faulted := rfl
@[simp] theorem State.raise_err (e : Raise) : (s.raise e).err = some ⟨e.cause, s.pc - 1, s.ir, e.info⟩ := rfl
@[simp] theorem State.raise_out (e : Raise) : (s.raise e).out = s.out := rfl
@[simp] theorem State.raise_imem (e : Raise) : (s.raise e).imem = s.imem := rfl
@[simp] theorem State.raise_answers (e : Raise) : (s.raise e).answers = s.answers := rfl

end Sys2Proof.Machine
end

