-- ==== Sys2Proof/Laws/Memory.lean ====
section
/-! SUPPORT. The laws of the stack memory: a read after a write, and the canonical form every operation keeps. -/

namespace Sys2Proof.Machine

theorem Memory.read_insert (initial : Option Int) (mem : Memory) (a b : Nat) (v : Int) :
    Memory.read initial (Memory.insert mem a v) b = if a = b then some v else Memory.read initial mem b := by
  induction mem with
  | nil => simp [Memory.insert, Memory.read]
  | cons c rest ih =>
    obtain ⟨k, x⟩ := c
    simp only [Memory.insert]
    split
    · simp [Memory.read]
    · split
      · subst_vars
        simp only [Memory.read]
        split <;> rfl
      · simp only [Memory.read, ih]
        split <;> split <;> simp_all

theorem Memory.read_filter (initial : Option Int) (mem : Memory) (a b : Nat) :
    Memory.read initial (mem.filter (fun c => c.1 != a)) b = if a = b then initial else Memory.read initial mem b := by
  induction mem with
  | nil => simp [Memory.read]
  | cons c rest ih =>
    obtain ⟨k, x⟩ := c
    by_cases hk : k = a
    · subst hk
      simp only [List.filter, bne_self_eq_false, ih, Memory.read]
      split <;> rfl
    · simp only [List.filter, bne_iff_ne.mpr hk, Memory.read, ih]
      split <;> split <;> simp_all

/-- A read after a write: the word written at that address, what was there at any other (20_memory R67). -/
theorem Memory.read_write (initial : Option Int) (mem : Memory) (a b : Nat) (v : Int) :
    Memory.read initial (Memory.write initial mem a v) b = if a = b then some v else Memory.read initial mem b := by
  unfold Memory.write
  split
  · next h => rw [Memory.read_filter, h]
  · exact Memory.read_insert initial mem a b v

theorem Memory.mem_insert {mem : Memory} {a : Nat} {v : Int} {c : Nat × Int} (h : c ∈ Memory.insert mem a v) :
    c = (a, v) ∨ c ∈ mem := by
  induction mem with
  | nil => simpa [Memory.insert] using h
  | cons d rest ih =>
    simp only [Memory.insert] at h
    split at h
    · simpa using h
    · split at h
      · rcases List.mem_cons.mp h with h | h
        · exact .inl h
        · exact .inr (List.mem_cons_of_mem _ h)
      · rcases List.mem_cons.mp h with h | h
        · exact .inr (h ▸ List.mem_cons_self)
        · exact (ih h).imp_right (List.mem_cons_of_mem _)

theorem Memory.insert_rising {mem : Memory} {a : Nat} {v : Int} (h : (mem.map Prod.fst).Pairwise (· < ·)) :
    ((Memory.insert mem a v).map Prod.fst).Pairwise (· < ·) := by
  induction mem with
  | nil => simp [Memory.insert]
  | cons c rest ih =>
    obtain ⟨k, x⟩ := c
    simp only [List.map_cons, List.pairwise_cons, List.mem_map, forall_exists_index, and_imp] at h
    obtain ⟨hlt, hrest⟩ := h
    simp only [Memory.insert]
    split
    · next hak =>
      simp only [List.map_cons, List.pairwise_cons, List.mem_cons, List.mem_map]
      refine ⟨?_, fun b hb => ?_, hrest⟩
      · rintro b (rfl | ⟨d, hd, rfl⟩)
        · exact hak
        · exact hak.trans (hlt _ d hd rfl)
      · obtain ⟨d, hd, rfl⟩ := hb
        exact hlt _ d hd rfl
    · split
      · next hak =>
        subst hak
        simp only [List.map_cons, List.pairwise_cons, List.mem_map]
        exact ⟨fun b ⟨d, hd, hb⟩ => hlt b d hd hb, hrest⟩
      · next h1 h2 =>
        simp only [List.map_cons, List.pairwise_cons, List.mem_map]
        refine ⟨?_, ih hrest⟩
        rintro b ⟨d, hd, rfl⟩
        rcases Memory.mem_insert hd with rfl | hd
        · show k < a
          omega
        · exact hlt _ d hd rfl

theorem Memory.mem_write {initial : Option Int} {mem : Memory} {a : Nat} {v : Int} {c : Nat × Int}
    (h : c ∈ Memory.write initial mem a v) : c = (a, v) ∨ c ∈ mem := by
  unfold Memory.write at h
  split at h
  · exact .inr (List.mem_filter.mp h).1
  · exact Memory.mem_insert h

/-- A write keeps the canonical form. -/
theorem Memory.wf_write {initial : Option Int} {mem : Memory} (h : Memory.wf initial mem) (a : Nat) (v : Int) :
    Memory.wf initial (Memory.write initial mem a v) := by
  unfold Memory.write
  split
  · exact ⟨(h.1).sublist (List.filter_sublist.map _), fun c hc => h.2 c (List.mem_filter.mp hc).1⟩
  · next hv =>
    refine ⟨Memory.insert_rising h.1, fun c hc => ?_⟩
    rcases Memory.mem_insert hc with rfl | hc
    · exact hv
    · exact h.2 c hc

/-- The empty memory is canonical. -/
theorem Memory.wf_nil (initial : Option Int) : Memory.wf initial [] := by simp [Memory.wf]

theorem State.cell_writeCell (s : State) (a b : Nat) (v : Int) :
    (s.writeCell a v).cell b = if a = b then some v else s.cell b :=
  Memory.read_write s.params.initial s.st a b v

/-- A store keeps the canonical form of the stack memory. -/
theorem State.writeCell_canonical (s : State) (a : Nat) (v : Int) (h : Memory.wf s.params.initial s.st) :
    Memory.wf (s.writeCell a v).params.initial (s.writeCell a v).st := Memory.wf_write h a v

/-- The memory at reset is canonical. -/
theorem State.reset_canonical (p : Params) (image : List Quad) (answers : List Answer) :
    Memory.wf (State.resetWith p image answers).params.initial (State.resetWith p image answers).st := Memory.wf_nil _

end Sys2Proof.Machine
end

