-- ==== Sys2Proof/Laws/Operands.lean ====
section
/-! SUPPORT. Once for each shared operation, everything it can answer. -/

namespace Sys2Proof.Machine

@[simp] theorem Except.okBind {α β : Type} (x : α) (f : α → Except Raise β) :
    ((Except.ok x : Except Raise α) >>= f) = f x := rfl

@[simp] theorem Except.errorBind {α β : Type} (e : Raise) (f : α → Except Raise β) :
    ((Except.error e : Except Raise α) >>= f) = Except.error e := rfl

@[simp] theorem Except.pureOk {α : Type} (x : α) : (pure x : Except Raise α) = Except.ok x := rfl

/-- A sequence that answers went through a first part that answered. -/
theorem Except.bindOk {α β : Type} {x : Except Raise α} {f : α → Except Raise β} {b : β} (h : (x >>= f) = .ok b) :
    ∃ a, x = .ok a ∧ f a = .ok b := by
  cases x with
  | ok a => exact ⟨a, rfl, h⟩
  | error e => exact nomatch h

theorem State.finish_ok (s t : State) : s.finish (.ok t) = .next t := rfl

theorem State.finish_error (s : State) (e : Raise) : s.finish (.error e) = .next (s.raise e) := rfl

/-- A meaning that answers either committed the state it computed or took the first error. -/
theorem State.finish_cases {s t : State} {x : Except Raise State} (h : s.finish x = .next t) :
    x = .ok t ∨ ∃ e, x = .error e ∧ t = s.raise e := by
  cases x with
  | ok u => cases h; exact .inl rfl
  | error e => cases h; exact .inr ⟨e, rfl, rfl⟩

theorem State.get_writeReg (s : State) (r q : Reg) (v : Int) :
    (s.writeReg r v).rf.get q = if r = q then some v else s.rf.get q := by
  simp [State.writeReg, Vector.get_eq_getElem, Vector.getElem_set, Fin.ext_iff]

theorem State.inStack_iff (s : State) (a : Int) : s.inStack a = true ↔ s.inArray a := by simp [State.inStack]

theorem State.readReg_some {s : State} {r : Reg} {v : Int} (h : s.rf.get r = some v) : s.readReg r = .ok v := by
  simp [State.readReg, h]

theorem State.readReg_none {s : State} {r : Reg} (h : s.rf.get r = none) :
    s.readReg r = .error ⟨.regUnwritten, regWord r⟩ := by
  simp [State.readReg, h]

theorem State.readReg_ok {s : State} {r : Reg} {v : Int} (h : s.readReg r = .ok v) : s.rf.get r = some v := by
  unfold State.readReg at h
  split at h
  · next x hx => cases h; exact hx
  · exact nomatch h

/-- A checked read that answers read an existing cell that holds the word. -/
theorem State.readCell_ok {s : State} {c : Cause} {a v : Int} (h : s.readCell c a = .ok v) :
    s.inArray a ∧ s.cell a.toNat = some v := by
  unfold State.readCell at h
  split at h
  · next hin =>
    split at h
    · next x hx => cases h; exact ⟨(s.inStack_iff a).mp hin, hx⟩
    · exact nomatch h
  · exact nomatch h

theorem State.readCell_some {s : State} {a v : Int} (c : Cause) (hin : s.inArray a) (h : s.cell a.toNat = some v) :
    s.readCell c a = .ok v := by
  simp [State.readCell, (s.inStack_iff a).mpr hin, h]

theorem State.readCell_none {s : State} {a : Int} (c : Cause) (hin : s.inArray a) (h : s.cell a.toNat = none) :
    s.readCell c a = .error ⟨.cellUnwritten, a⟩ := by
  simp [State.readCell, (s.inStack_iff a).mpr hin, h]

theorem State.readCell_range {s : State} {a : Int} (c : Cause) (h : ¬ s.inArray a) :
    s.readCell c a = .error ⟨c, a⟩ := by
  have : s.inStack a = false := by simpa [State.inStack] using h
  simp [State.readCell, this]

/-- A checked store that answers stored the word in an existing cell. -/
theorem State.memWrite_ok {s t : State} {a v : Int} (h : s.memWrite a v = .ok t) :
    s.inArray a ∧ t = s.writeCell a.toNat v := by
  unfold State.memWrite at h
  split at h
  · next hin => cases h; exact ⟨(s.inStack_iff a).mp hin, rfl⟩
  · exact nomatch h

theorem State.memWrite_in {s : State} {a : Int} (v : Int) (h : s.inArray a) :
    s.memWrite a v = .ok (s.writeCell a.toNat v) := by
  simp [State.memWrite, (s.inStack_iff a).mpr h]

theorem State.memWrite_range {s : State} {a : Int} (v : Int) (h : ¬ s.inArray a) :
    s.memWrite a v = .error ⟨.stackRange, a⟩ := by
  have : s.inStack a = false := by simpa [State.inStack] using h
  simp [State.memWrite, this]

theorem State.checkAddr_in {s : State} {a : Int} (h : s.inArray a) : s.checkAddr a = .ok () := by
  simp [State.checkAddr, (s.inStack_iff a).mpr h]

theorem State.checkAddr_range {s : State} {a : Int} (h : ¬ s.inArray a) :
    s.checkAddr a = .error ⟨.stackRange, a⟩ := by
  have : s.inStack a = false := by simpa [State.inStack] using h
  simp [State.checkAddr, this]

/-- A checked SP that answers is the value given, in range. -/
theorem State.checkSp_ok {s : State} {v w : Int} (h : s.checkSp v = .ok w) :
    w = v ∧ 0 ≤ v ∧ v ≤ s.params.stackCap := by
  unfold State.checkSp at h
  split at h
  · next hv => cases h; exact ⟨rfl, hv⟩
  · exact nomatch h

/-- A checked result that answers is the value given, and a word. -/
theorem State.checkWord_ok {s : State} {v w : Int} (h : s.checkWord v = .ok w) : w = v ∧ s.isWord v := by
  unfold State.checkWord at h
  split at h
  · next hv => cases h; exact ⟨rfl, hv⟩
  · exact nomatch h

@[simp] theorem State.resolve_zero (s : State) (b : Int) : s.resolve 0 b = .ok b := rfl

theorem State.resolve_succ (s : State) (l : Nat) (b : Int) :
    s.resolve (l + 1) b = (s.linkRead b >>= fun base => s.resolve l base) := rfl

end Sys2Proof.Machine
end

