-- ==== Sys2Proof/Laws/PerInstr.lean ====
section
/-! SUPPORT. For every instruction: decoding its encoding gives it back (30_encoding R73, R76, R83). -/

namespace Sys2Proof

open Sys2Proof.Machine

@[simp] theorem regField_regWord (r : Reg) : regField (regWord r) = .ok r := by
  have h : 0 ≤ (r.val : Int) ∧ (r.val : Int) ≤ 6 := by omega
  unfold regField regWord
  rw [dif_pos h]
  rfl

@[simp] theorem levelField_natCast (l : Nat) : levelField (l : Int) = .ok l := by
  simp [levelField]

end Sys2Proof

namespace Sys2Proof.Laws.RoundTrip

open Sys2Proof Sys2Proof.Machine

/-- Decoding the encoding of `i` gives `i`. -/
def Statement (i : Instr) : Prop := decode (encode i) = .ok i

theorem lit (r : Reg) (value : Int) : Statement (.lit r value) := by
  simp [Statement, encode, decode, decodeReg]

theorem rtn : Statement .rtn := rfl

theorem lod (r : Reg) (level : Nat) (offset : Int) : Statement (.lod r level offset) := by
  simp [Statement, encode, decode, decodeAccess]

theorem sto (r : Reg) (level : Nat) (offset : Int) : Statement (.sto r level offset) := by
  simp [Statement, encode, decode, decodeAccess]

theorem cal (level : Nat) (target : Int) : Statement (.cal level target) := by
  simp [Statement, encode, decode, decodeCall]

theorem inc (count : Int) : Statement (.inc count) := rfl

theorem jmp (target : Int) : Statement (.jmp target) := rfl

theorem jpc (r : Reg) (target : Int) : Statement (.jpc r target) := by
  simp [Statement, encode, decode, decodeReg]

theorem sysWrite (r : Reg) : Statement (.sysWrite r) := by
  simp [Statement, encode, decode, decodeSys, decodeReg]

theorem sysRead (r : Reg) : Statement (.sysRead r) := by
  simp [Statement, encode, decode, decodeSys, decodeReg]

theorem sysHalt : Statement .sysHalt := rfl

theorem neg (r : Reg) : Statement (.neg r) := by
  simp [Statement, encode, decode, decodeReg]

theorem add (r a b : Reg) : Statement (.add r a b) := by
  simp [Statement, encode, decode, decodeBinary]

theorem sub (r a b : Reg) : Statement (.sub r a b) := by
  simp [Statement, encode, decode, decodeBinary]

theorem mul (r a b : Reg) : Statement (.mul r a b) := by
  simp [Statement, encode, decode, decodeBinary]

theorem div (r a b : Reg) : Statement (.div r a b) := by
  simp [Statement, encode, decode, decodeBinary]

theorem odd (r : Reg) : Statement (.odd r) := by
  simp [Statement, encode, decode, decodeReg]

theorem mod (r a b : Reg) : Statement (.mod r a b) := by
  simp [Statement, encode, decode, decodeBinary]

theorem eql (r a b : Reg) : Statement (.eql r a b) := by
  simp [Statement, encode, decode, decodeBinary]

theorem neq (r a b : Reg) : Statement (.neq r a b) := by
  simp [Statement, encode, decode, decodeBinary]

theorem lss (r a b : Reg) : Statement (.lss r a b) := by
  simp [Statement, encode, decode, decodeBinary]

theorem leq (r a b : Reg) : Statement (.leq r a b) := by
  simp [Statement, encode, decode, decodeBinary]

theorem gtr (r a b : Reg) : Statement (.gtr r a b) := by
  simp [Statement, encode, decode, decodeBinary]

theorem geq (r a b : Reg) : Statement (.geq r a b) := by
  simp [Statement, encode, decode, decodeBinary]

end Sys2Proof.Laws.RoundTrip
end

