-- ==== Sys2Proof/Laws/Decode.lean ====
section
/-! SUPPORT. What the field and form decoders accept (30_encoding R73, R77, R80, R82), and the table word. -/

namespace Sys2Proof

open Sys2Proof.Machine

theorem regField_iff {v : Int} {r : Reg} : regField v = .ok r ↔ v = regWord r := by
  constructor
  · intro h
    unfold regField at h
    split at h
    · next hv => cases h; simp [regWord]; omega
    · cases h
  · rintro rfl; exact regField_regWord r

theorem regField_error {v : Int} (h : ¬ (0 ≤ v ∧ v ≤ 6)) : regField v = .error ⟨.regIndex, v⟩ := by
  simp [regField, h]

theorem regField_total {v : Int} (h : 0 ≤ v ∧ v ≤ 6) : ∃ r, regField v = .ok r := ⟨_, by rw [regField, dif_pos h]⟩

theorem levelField_iff {v : Int} {l : Nat} : levelField v = .ok l ↔ v = l := by
  constructor
  · intro h
    unfold levelField at h
    split at h
    · cases h
    · cases h; omega
  · rintro rfl; simp

theorem levelField_error {v : Int} (h : v < 0) : levelField v = .error ⟨.negLevel, v⟩ := by simp [levelField, h]

theorem Except.bindOk_iff {α β : Type} {x : Except Raise α} {f : α → Except Raise β} {b : β} :
    (x >>= f) = .ok b ↔ ∃ a, x = .ok a ∧ f a = .ok b :=
  ⟨Machine.Except.bindOk, fun ⟨a, h1, h2⟩ => by rw [h1]; exact h2⟩

theorem decodeReg_iff {q : Quad} {f : Reg → Instr} {i : Instr} :
    decodeReg q f = .ok i ↔ ∃ r, q.r = regWord r ∧ f r = i := by
  simp [decodeReg, Except.bindOk_iff, regField_iff]

theorem decodeBinary_iff {q : Quad} {f : Reg → Reg → Reg → Instr} {i : Instr} :
    decodeBinary q f = .ok i ↔
      ∃ r, q.r = regWord r ∧ ∃ a, q.l = regWord a ∧ ∃ b, q.m = regWord b ∧ f r a b = i := by
  simp [decodeBinary, Except.bindOk_iff, regField_iff]

theorem decodeAccess_iff {q : Quad} {f : Reg → Nat → Int → Instr} {i : Instr} :
    decodeAccess q f = .ok i ↔ ∃ r, q.r = regWord r ∧ ∃ l : Nat, q.l = l ∧ f r l q.m = i := by
  simp [decodeAccess, Except.bindOk_iff, regField_iff, levelField_iff]

theorem decodeCall_iff {q : Quad} {i : Instr} :
    decodeCall q = .ok i ↔ ∃ l : Nat, q.l = l ∧ Instr.cal l q.m = i := by
  simp [decodeCall, Except.bindOk_iff, levelField_iff]

theorem decodeSys_iff {q : Quad} {i : Instr} :
    decodeSys q = .ok i ↔ (q.m = 1 ∧ ∃ r, q.r = regWord r ∧ .sysWrite r = i)
      ∨ (q.m = 2 ∧ ∃ r, q.r = regWord r ∧ .sysRead r = i) ∨ (q.m = 3 ∧ .sysHalt = i) := by
  unfold decodeSys
  split
  · next h => have : q.m = 1 := by omega
              simp [this, decodeReg_iff]
  · next h => have : q.m = 2 := by omega
              simp [this, decodeReg_iff]
  · next h => have : q.m = 3 := by omega
              simp [this]
  · next h1 h2 h3 =>
    have a1 : q.m ≠ 1 := by intro h; exact h1 (by omega)
    have a2 : q.m ≠ 2 := by intro h; exact h2 (by omega)
    have a3 : q.m ≠ 3 := by intro h; exact h3 (by omega)
    simp [a1, a2, a3]

theorem decode_badOpcode {q : Quad} (h : q.opcode < 1 ∨ 22 < q.opcode) :
    decode q = .error ⟨.badOpcode, q.opcode⟩ := by
  unfold decode
  split <;> first | omega | rfl

theorem wordOfBits_bitsOfWord {v : Int} (h : WordBits.contains (.bounded 32) v = true) :
    wordOfBits (bitsOfWord v) = v := by
  simp only [WordBits.contains, decide_eq_true_eq] at h
  norm_num at h
  unfold wordOfBits bitsOfWord
  split <;> omega

theorem bitsOfWord_lt (v : Int) : bitsOfWord v < 2 ^ 32 := by unfold bitsOfWord; omega

theorem quadOfTableWord_tableWordOfQuad {q : Quad} (h : q.WellFormed (.bounded 32)) :
    quadOfTableWord 128 (tableWordOfQuad q) = q := by
  obtain ⟨op, r, l, m⟩ := q
  obtain ⟨h0, h1, h2, h3⟩ := h
  simp only at h0 h1 h2 h3
  have e0 := wordOfBits_bitsOfWord h0
  have e1 := wordOfBits_bitsOfWord h1
  have e2 := wordOfBits_bitsOfWord h2
  have e3 := wordOfBits_bitsOfWord h3
  have b0 := bitsOfWord_lt op
  have b1 := bitsOfWord_lt r
  have b2 := bitsOfWord_lt l
  have b3 := bitsOfWord_lt m
  unfold quadOfTableWord tableWordOfQuad
  simp only [Quad.mk.injEq]
  generalize bitsOfWord op = x0 at *
  generalize bitsOfWord r = x1 at *
  generalize bitsOfWord l = x2 at *
  generalize bitsOfWord m = x3 at *
  refine ⟨?_, ?_, ?_, ?_⟩
  · rw [← e0]; congr 1; omega
  · rw [← e1]; congr 1; omega
  · rw [← e2]; congr 1; omega
  · rw [← e3]; congr 1; omega

end Sys2Proof
end

