-- ==== Sys2Proof/Laws/Exec.lean ====
section
/-! SUPPORT. Everything an instruction can do, once: which errors each operation can raise, and `exec_cases`, the
inversion of `exec` (log entry 14 for the state it starts from). -/

namespace Sys2Proof.Machine

/-- Every error `x` can be has the property `P`. -/
def Errors {α : Type} (P : Raise → Prop) (x : Except Raise α) : Prop := ∀ e, x = .error e → P e

theorem Errors.ok {α : Type} {P : Raise → Prop} (a : α) : Errors P (.ok a) := fun _ h => nomatch h

theorem Errors.bind {α β : Type} {P : Raise → Prop} {x : Except Raise α} {f : α → Except Raise β} (hx : Errors P x)
    (hf : ∀ a, Errors P (f a)) : Errors P (x >>= f) := by
  intro e h
  cases x with
  | ok a => exact hf a e h
  | error e' => cases (show (Except.error e' : Except Raise β) = .error e from h); exact hx _ rfl

theorem readCell_errors {P : Raise → Prop} (s : State) (c : Cause) (a : Int) (h1 : P ⟨c, a⟩)
    (h2 : s.cell a.toNat = none → P ⟨.cellUnwritten, a⟩) : Errors P (s.readCell c a) := by
  intro e h
  unfold State.readCell at h
  split at h
  · split at h <;> cases h; exact h2 ‹_›
  · cases h; exact h1

theorem resolve_errors {P : Raise → Prop} (s : State) (h1 : ∀ a, P ⟨.resolveRange, a⟩)
    (h2 : ∀ a : Int, s.cell a.toNat = none → P ⟨.cellUnwritten, a⟩) : ∀ l b, Errors P (s.resolve l b) := by
  intro l
  induction l with
  | zero => intro b; exact Errors.ok b
  | succ l ih => intro b; exact (readCell_errors s _ b (h1 b) (h2 b)).bind (fun a => ih a)

theorem readReg_errors {P : Raise → Prop} (s : State) (r : Reg)
    (h : s.rf.get r = none → P ⟨.regUnwritten, regWord r⟩) : Errors P (s.readReg r) := by
  intro e he
  unfold State.readReg at he
  split at he <;> cases he
  exact h ‹_›

theorem checkSp_errors {P : Raise → Prop} (s : State) (v : Int) (h : P ⟨.spRange, v⟩) : Errors P (s.checkSp v) := by
  intro e he
  unfold State.checkSp at he
  split at he <;> cases he
  exact h

theorem checkWord_errors {P : Raise → Prop} (s : State) (v : Int) (h : P ⟨.overflow, v⟩) :
    Errors P (s.checkWord v) := by
  intro e he
  unfold State.checkWord at he
  split at he <;> cases he
  exact h

theorem memWrite_errors {P : Raise → Prop} (s : State) (a v : Int) (h : P ⟨.stackRange, a⟩) :
    Errors P (s.memWrite a v) := by
  intro e he
  unfold State.memWrite at he
  split at he <;> cases he
  exact h

theorem checkAddr_errors {P : Raise → Prop} (s : State) (a : Int) (h : P ⟨.stackRange, a⟩) :
    Errors P (s.checkAddr a) := by
  intro e he
  unfold State.checkAddr at he
  split at he <;> cases he
  exact h

theorem checkAnswer_errors {P : Raise → Prop} (s : State) (a : Answer) (h1 : P ⟨.inputUnavailable, 0⟩)
    (h2 : ∀ v, P ⟨.inputRange, v⟩) : Errors P (s.checkAnswer a) := by
  intro e he
  unfold State.checkAnswer at he
  split at he
  · cases he; exact h1
  · split at he <;> cases he
    exact h2 _

/-- An error decoding raises is a decode check, so neither PC_RANGE nor an unwritten read. -/
theorem decode_errors (q : Quad) :
    Errors (fun e => e.cause ≠ .pcRange ∧ e.cause.kind ≠ .unwrittenReadError) (decode q) := by
  have hr : ∀ v, Errors (fun e => e.cause ≠ .pcRange ∧ e.cause.kind ≠ .unwrittenReadError) (regField v) := by
    intro v e h
    unfold regField at h
    split at h <;> cases h
    exact ⟨nofun, nofun⟩
  have hl : ∀ v, Errors (fun e => e.cause ≠ .pcRange ∧ e.cause.kind ≠ .unwrittenReadError) (levelField v) := by
    intro v e h
    unfold levelField at h
    split at h <;> cases h
    exact ⟨nofun, nofun⟩
  have h1 : ∀ f, Errors _ (decodeReg q f) := fun f => (hr _).bind fun _ => Errors.ok _
  have h2 : ∀ f, Errors _ (decodeBinary q f) :=
    fun f => (hr _).bind fun _ => (hr _).bind fun _ => (hr _).bind fun _ => Errors.ok _
  have h3 : ∀ f, Errors _ (decodeAccess q f) := fun f => (hr _).bind fun _ => (hl _).bind fun _ => Errors.ok _
  have h4 : Errors _ (decodeCall q) := (hl _).bind fun _ => Errors.ok _
  have h5 : Errors (fun e => e.cause ≠ .pcRange ∧ e.cause.kind ≠ .unwrittenReadError) (decodeSys q) := by
    unfold decodeSys
    split <;> first | exact h1 _ | exact Errors.ok _ | (intro e h; cases h; exact ⟨nofun, nofun⟩)
  unfold decode
  split <;> first | exact h1 _ | exact h2 _ | exact h3 _ | exact h4 | exact h5 | exact Errors.ok _ |
    (intro e h; cases h; exact ⟨nofun, nofun⟩)

/-- The causes each instruction can raise at execute (60_exceptions R138, R146). -/
def raisedBy : Instr → List Cause
  | .lit _ _ | .jmp _ | .sysHalt => []
  | .rtn => [.spRange, .stackRange, .cellUnwritten]
  | .inc _ => [.spRange]
  | .lod _ _ _ => [.resolveRange, .stackRange, .cellUnwritten]
  | .sto _ _ _ => [.resolveRange, .stackRange, .cellUnwritten, .regUnwritten]
  | .cal _ _ => [.resolveRange, .stackRange, .cellUnwritten]
  | .sysRead _ => [.inputUnavailable, .inputRange]
  | .jpc _ _ | .sysWrite _ | .odd _ => [.regUnwritten]
  | .neg _ | .add _ _ _ | .sub _ _ _ | .mul _ _ _ => [.regUnwritten, .overflow]
  | .div _ _ _ => [.regUnwritten, .overflow, .divZero]
  | .mod _ _ _ => [.regUnwritten, .overflow, .modZero]
  | .eql _ _ _ | .neq _ _ _ | .lss _ _ _ | .leq _ _ _ | .gtr _ _ _ | .geq _ _ _ => [.regUnwritten]

/-- What is known of an error instruction `i` raises from `s`: its cause is one of the instruction's, and an unwritten
read means that some register or cell is empty. -/
structure ExecError (s : State) (i : Instr) (e : Raise) : Prop where
  cause : e.cause ∈ raisedBy i
  unwritten : e.cause.kind = .unwrittenReadError → (∃ r, s.rf.get r = none) ∨ ∃ a, s.cell a = none

theorem ExecError.of {s : State} {i : Instr} (c : Cause) (v : Int) (h : c ∈ raisedBy i)
    (h2 : c.kind ≠ .unwrittenReadError) : ExecError s i ⟨c, v⟩ := ⟨h, fun hk => absurd hk h2⟩

theorem ExecError.cell {s : State} {i : Instr} {a : Int} (hi : .cellUnwritten ∈ raisedBy i)
    (h : s.cell a.toNat = none) : ExecError s i ⟨.cellUnwritten, a⟩ := ⟨hi, fun _ => .inr ⟨_, h⟩⟩

theorem ExecError.reg {s : State} {i : Instr} {r : Reg} {v : Int} (hi : .regUnwritten ∈ raisedBy i)
    (h : s.rf.get r = none) : ExecError s i ⟨.regUnwritten, v⟩ := ⟨hi, fun _ => .inl ⟨_, h⟩⟩

/-- PC_RANGE and the decode errors are raised by no instruction at execute. -/
theorem raisedBy_notFetch (i : Instr) (c : Cause) (h : c ∈ raisedBy i) : c ≠ .pcRange ∧ c.kind ≠ .decodeError := by
  cases i <;> revert c <;> simp [raisedBy, Cause.kind]

theorem execError_memRead {i : Instr} (s : State) (a : Int) (h : .stackRange ∈ raisedBy i)
    (h2 : .cellUnwritten ∈ raisedBy i) : Errors (ExecError s i) (s.memRead a) :=
  readCell_errors s _ a (.of _ _ h nofun) (ExecError.cell h2)

theorem execError_resolve {i : Instr} (s : State) (l : Nat) (b : Int) (h : .resolveRange ∈ raisedBy i)
    (h2 : .cellUnwritten ∈ raisedBy i) : Errors (ExecError s i) (s.resolve l b) :=
  resolve_errors s (fun _ => .of _ _ h nofun) (fun _ => ExecError.cell h2) l b

theorem execError_readReg {i : Instr} (s : State) (r : Reg) (h : .regUnwritten ∈ raisedBy i) :
    Errors (ExecError s i) (s.readReg r) :=
  readReg_errors s r (ExecError.reg h)

theorem execError_checkWord {i : Instr} (s : State) (v : Int) (h : .overflow ∈ raisedBy i) :
    Errors (ExecError s i) (s.checkWord v) :=
  checkWord_errors s v (.of _ _ h nofun)

theorem execError_checkSp {i : Instr} (s : State) (v : Int) (h : .spRange ∈ raisedBy i) :
    Errors (ExecError s i) (s.checkSp v) :=
  checkSp_errors s v (.of _ _ h nofun)

theorem execError_memWrite {i : Instr} (s u : State) (a v : Int) (h : .stackRange ∈ raisedBy i) :
    Errors (ExecError s i) (u.memWrite a v) :=
  memWrite_errors u a v (.of _ _ h nofun)

theorem execError_checkAddr {i : Instr} (s : State) (a : Int) (h : .stackRange ∈ raisedBy i) :
    Errors (ExecError s i) (s.checkAddr a) :=
  checkAddr_errors s a (.of _ _ h nofun)

theorem execError_effectiveAddress {i : Instr} (s : State) (l : Nat) (m : Int) (h : .resolveRange ∈ raisedBy i)
    (h2 : .cellUnwritten ∈ raisedBy i) : Errors (ExecError s i) (s.effectiveAddress l m) :=
  (execError_resolve s l s.bp h h2).bind fun _ => Errors.ok _

/-- A one-operand operation raises or writes its register. -/
theorem unary_cases {s t : State} {i : Instr} {r : Reg} {f : Int → Except Raise Int} (hi : .regUnwritten ∈ raisedBy i)
    (hf : ∀ x, Errors (ExecError s i) (f x)) (h : s.unary r f = .next t) :
    (∃ e, ExecError s i e ∧ t = s.raise e) ∨ ∃ v, t = s.writeReg r v := by
  rcases State.finish_cases h with hu | ⟨e, he, rfl⟩
  · obtain ⟨x, hx, hu⟩ := Except.bindOk hu
    obtain ⟨v, hv, hu⟩ := Except.bindOk hu
    cases hu; exact .inr ⟨v, rfl⟩
  · exact .inl ⟨e, (execError_readReg s r hi).bind (fun a => (hf a).bind fun v => Errors.ok _) e he, rfl⟩

/-- A two-operand operation raises or writes its register. -/
theorem binary_cases {s t : State} {i : Instr} {r a b : Reg} {f : Int → Int → Except Raise Int}
    (hi : .regUnwritten ∈ raisedBy i) (hf : ∀ x y, Errors (ExecError s i) (f x y)) (h : s.binary r a b f = .next t) :
    (∃ e, ExecError s i e ∧ t = s.raise e) ∨ ∃ v, t = s.writeReg r v := by
  rcases State.finish_cases h with hu | ⟨e, he, rfl⟩
  · obtain ⟨x, hx, hu⟩ := Except.bindOk hu
    obtain ⟨y, hy, hu⟩ := Except.bindOk hu
    obtain ⟨v, hv, hu⟩ := Except.bindOk hu
    cases hu; exact .inr ⟨v, rfl⟩
  · exact .inl ⟨e, (execError_readReg s a hi).bind (fun _ => (execError_readReg s b hi).bind
      (fun _ => (hf _ _).bind fun v => Errors.ok _)) e he, rfl⟩

theorem unary_some {s : State} {r : Reg} {f : Int → Except Raise Int} {x : Int} (h : s.rf.get r = some x) :
    s.unary r f = s.finish (f x >>= fun v => .ok (s.writeReg r v)) := by
  simp [State.unary, State.readReg_some h]

theorem binary_some {s : State} {r a b : Reg} {f : Int → Int → Except Raise Int} {x y : Int}
    (h : s.rf.get a = some x) (h2 : s.rf.get b = some y) :
    s.binary r a b f = s.finish (f x y >>= fun v => .ok (s.writeReg r v)) := by
  simp [State.binary, State.readReg_some h, State.readReg_some h2]

/-- Everything the execute phase can lead to from `s`, instruction by instruction. -/
inductive ExecOut (s : State) : Instr → State → Prop where
  | raise {i e} : (∀ r, i ≠ .sysRead r) → ExecError s i e → ExecOut s i (s.raise e)
  | lit (r v) : ExecOut s (.lit r v) (s.writeReg r v)
  | lod (r l m v) : ExecOut s (.lod r l m) (s.writeReg r v)
  | unary {i} (r v) : i = .neg r ∨ i = .odd r → ExecOut s i (s.writeReg r v)
  | binary {i} (r a b v) : i ∈ [Instr.add r a b, .sub r a b, .mul r a b, .div r a b, .mod r a b, .eql r a b, .neq r a b,
        .lss r a b, .leq r a b, .gtr r a b, .geq r a b] → ExecOut s i (s.writeReg r v)
  | sto (r l m a v) : s.inArray a → s.effectiveAddress l m = .ok a → s.rf.get r = some v →
      ExecOut s (.sto r l m) (s.writeCell a.toNat v)
  | rtn (dl ra) : 0 ≤ s.bp + 1 → s.bp + 1 ≤ s.params.stackCap → s.cell (s.bp - 1).toNat = some dl →
      s.cell (s.bp - 2).toNat = some ra → ExecOut s .rtn (((s.setSp (s.bp + 1)).setBp dl).setPc ra)
  | cal (l m c) : s.resolve l s.bp = .ok c → s.inArray (s.sp - 1) → s.inArray (s.sp - 2) → s.inArray (s.sp - 3) →
      ExecOut s (.cal l m) (((((s.writeCell (s.sp - 1).toNat c).writeCell (s.sp - 2).toNat s.bp).writeCell
        (s.sp - 3).toNat s.pc).setBp (s.sp - 1)).setPc m)
  | inc (n) : 0 ≤ s.sp - n → s.sp - n ≤ s.params.stackCap → ExecOut s (.inc n) (s.setSp (s.sp - n))
  | jmp (m) : ExecOut s (.jmp m) (s.setPc m)
  | jpcTaken (r m) : s.rf.get r = some 0 → ExecOut s (.jpc r m) (s.setPc m)
  | jpcFall (r m v) : s.rf.get r = some v → v ≠ 0 → ExecOut s (.jpc r m) s
  | sysWrite (r v) : s.rf.get r = some v → ExecOut s (.sysWrite r) (s.emit r v)
  | sysHalt : ExecOut s .sysHalt s.halt
  | sysWait (r) : s.answers = [] → ExecOut s (.sysRead r) s.wait
  | sysRead (r a rest v) : s.answers = a :: rest → ExecOut s (.sysRead r) ((s.setAnswers rest).writeReg r v)
  | sysReadError (r a rest e) : s.answers = a :: rest → ExecError s (.sysRead r) e →
      ExecOut s (.sysRead r) ((s.setAnswers rest).raise e)

theorem unary_out {s t : State} {i : Instr} {r : Reg} {f : Int → Except Raise Int} (hi : i = .neg r ∨ i = .odd r)
    (hf : ∀ x, Errors (ExecError s i) (f x)) (h : s.unary r f = .next t) : ExecOut s i t := by
  rcases unary_cases (by rcases hi with rfl | rfl <;> simp [raisedBy]) hf h with ⟨e, he, rfl⟩ | ⟨v, rfl⟩
  · exact .raise (by rcases hi with rfl | rfl <;> nofun) he
  · exact .unary r v hi

theorem binary_out {s t : State} {i : Instr} {r a b : Reg} {f : Int → Int → Except Raise Int}
    (hi : i ∈ [Instr.add r a b, .sub r a b, .mul r a b, .div r a b, .mod r a b, .eql r a b, .neq r a b,
        .lss r a b, .leq r a b, .gtr r a b, .geq r a b])
    (hf : ∀ x y, Errors (ExecError s i) (f x y)) (h : s.binary r a b f = .next t) : ExecOut s i t := by
  have hu : .regUnwritten ∈ raisedBy i ∧ ∀ q, i ≠ .sysRead q := by
    simp only [List.mem_cons, List.not_mem_nil, or_false] at hi
    rcases hi with rfl | rfl | rfl | rfl | rfl | rfl | rfl | rfl | rfl | rfl | rfl <;> simp [raisedBy]
  rcases binary_cases hu.1 hf h with ⟨e, he, rfl⟩ | ⟨v, rfl⟩
  · exact .raise hu.2 he
  · exact .binary r a b v hi

/-- The inversion of `exec`. -/
theorem exec_cases {i : Instr} {s t : State} (h : exec i s = .next t) : ExecOut s i t := by
  cases i with
  | lit r v => cases h; exact .lit r v
  | rtn =>
    rcases State.finish_cases h with hu | ⟨e, he, rfl⟩
    · obtain ⟨sp, hsp, hu⟩ := Except.bindOk hu
      obtain ⟨dl, hdl, hu⟩ := Except.bindOk hu
      obtain ⟨ra, hra, hu⟩ := Except.bindOk hu
      cases hu
      obtain ⟨rfl, h1, h2⟩ := State.checkSp_ok hsp
      have e1 := (State.readCell_ok hdl).2
      have e2 := (State.readCell_ok hra).2
      exact .rtn dl ra h1 h2 (by rw [← e1]; congr 2; omega) (by rw [← e2]; congr 2; omega)
    · exact .raise nofun ((execError_checkSp s _ (by simp [raisedBy])).bind (fun _ => (execError_memRead s _ (by simp [raisedBy]) (by simp [raisedBy])).bind
        fun _ => (execError_memRead s _ (by simp [raisedBy]) (by simp [raisedBy])).bind fun _ => Errors.ok _) e he)
  | lod r l m =>
    rcases State.finish_cases h with hu | ⟨e, he, rfl⟩
    · obtain ⟨ea, hea, hu⟩ := Except.bindOk hu
      obtain ⟨v, hv, hu⟩ := Except.bindOk hu
      cases hu; exact .lod r l m v
    · exact .raise nofun ((execError_effectiveAddress s l m (by simp [raisedBy]) (by simp [raisedBy])).bind (fun _ => (execError_memRead s _ (by simp [raisedBy]) (by simp [raisedBy])).bind
        fun _ => Errors.ok _) e he)
  | sto r l m =>
    rcases State.finish_cases h with hu | ⟨e, he, rfl⟩
    · obtain ⟨ea, hea, hu⟩ := Except.bindOk hu
      obtain ⟨_, _, hu⟩ := Except.bindOk hu
      obtain ⟨v, hv, hu⟩ := Except.bindOk hu
      obtain ⟨h1, rfl⟩ := State.memWrite_ok hu
      exact .sto r l m ea v h1 hea (State.readReg_ok hv)
    · exact .raise nofun ((execError_effectiveAddress s l m (by simp [raisedBy]) (by simp [raisedBy])).bind (fun _ => (execError_checkAddr s _ (by simp [raisedBy])).bind
        fun _ => (execError_readReg s r (by simp [raisedBy])).bind fun _ => execError_memWrite s s _ _ (by simp [raisedBy])) e he)
  | cal l m =>
    rcases State.finish_cases h with hu | ⟨e, he, rfl⟩
    · obtain ⟨sl, hsl, hu⟩ := Except.bindOk hu
      obtain ⟨s1, h1, hu⟩ := Except.bindOk hu
      obtain ⟨s2, h2, hu⟩ := Except.bindOk hu
      obtain ⟨s3, h3, hu⟩ := Except.bindOk hu
      cases hu
      obtain ⟨a1, rfl⟩ := State.memWrite_ok h1
      obtain ⟨a2, rfl⟩ := State.memWrite_ok h2
      obtain ⟨a3, rfl⟩ := State.memWrite_ok h3
      exact .cal l m sl hsl a1 a2 a3
    · exact .raise nofun ((execError_resolve s l s.bp (by simp [raisedBy]) (by simp [raisedBy])).bind (fun _ => (execError_memWrite s _ _ _ (by simp [raisedBy])).bind
        fun _ => (execError_memWrite s _ _ _ (by simp [raisedBy])).bind fun _ => (execError_memWrite s _ _ _ (by simp [raisedBy])).bind
        fun _ => Errors.ok _) e he)
  | inc n =>
    rcases State.finish_cases h with hu | ⟨e, he, rfl⟩
    · obtain ⟨sp, hsp, hu⟩ := Except.bindOk hu
      cases hu
      obtain ⟨rfl, h1, h2⟩ := State.checkSp_ok hsp
      exact .inc n h1 h2
    · exact .raise nofun ((execError_checkSp s _ (by simp [raisedBy])).bind (fun _ => Errors.ok _) e he)
  | jmp m => cases h; exact .jmp m
  | jpc r m =>
    rcases State.finish_cases h with hu | ⟨e, he, rfl⟩
    · obtain ⟨v, hv, hu⟩ := Except.bindOk hu
      split at hu <;> cases hu
      · next hv0 => subst hv0; exact .jpcTaken r m (State.readReg_ok hv)
      · exact .jpcFall r m v (State.readReg_ok hv) ‹_›
    · exact .raise nofun ((execError_readReg s r (by simp [raisedBy])).bind (fun _ => Errors.ok _) e he)
  | sysWrite r =>
    rcases State.finish_cases h with hu | ⟨e, he, rfl⟩
    · obtain ⟨v, hv, hu⟩ := Except.bindOk hu
      cases hu; exact .sysWrite r v (State.readReg_ok hv)
    · exact .raise nofun ((execError_readReg s r (by simp [raisedBy])).bind (fun _ => Errors.ok _) e he)
  | sysRead r =>
    simp only [exec, execSysRead] at h
    split at h
    · cases h; exact .sysWait r ‹_›
    · next a rest ha =>
      rcases State.finish_cases h with hu | ⟨e, he, rfl⟩
      · obtain ⟨v, hv, hu⟩ := Except.bindOk hu
        cases hu; exact .sysRead r a rest v ha
      · exact .sysReadError r a rest e ha ((checkAnswer_errors s a (.of _ _ (by simp [raisedBy]) nofun)
          fun _ => .of _ _ (by simp [raisedBy]) nofun).bind (fun _ => Errors.ok _) e he)
  | sysHalt => cases h; exact .sysHalt
  | neg r => exact unary_out (.inl rfl) (fun x => execError_checkWord s _ (by simp [raisedBy])) h
  | odd r => exact unary_out (.inr rfl) (fun x => Errors.ok _) h
  | add r a b | sub r a b | mul r a b =>
    exact binary_out (by simp) (fun x y => execError_checkWord s _ (by simp [raisedBy])) h
  | div r a b =>
    refine binary_out (a := a) (b := b) (by simp) (fun x y => ?_) h
    split
    · intro e he; cases he; exact .of _ _ (by simp [raisedBy]) nofun
    · exact execError_checkWord s _ (by simp [raisedBy])
  | mod r a b =>
    refine binary_out (a := a) (b := b) (by simp) (fun x y => ?_) h
    split
    · intro e he; cases he; exact .of _ _ (by simp [raisedBy]) nofun
    · split
      · intro e he; cases he; exact .of _ _ (by simp [raisedBy]) nofun
      · exact Errors.ok _
  | eql r a b | neq r a b | lss r a b | leq r a b | gtr r a b | geq r a b =>
    exact binary_out (by simp) (fun x y => Errors.ok _) h

/-- The execute phase always answers a next state. -/
theorem exec_total (i : Instr) (s : State) : ∃ t, exec i s = .next t := by
  have fin : ∀ (u : State) x, ∃ t, u.finish x = .next t := by
    intro u x; cases x <;> exact ⟨_, rfl⟩
  cases i with
  | sysRead r =>
    simp only [exec, execSysRead]
    split
    · exact ⟨_, rfl⟩
    · exact fin _ _
  | lit | jmp | sysHalt => exact ⟨_, rfl⟩
  | _ => exact fin s _

/-- The program, the parameters and IR stay in the execute phase. -/
theorem exec_keeps {i : Instr} {s t : State} (h : exec i s = .next t) :
    t.imem = s.imem ∧ t.params = s.params ∧ t.ir = s.ir := by
  cases exec_cases h <;> exact ⟨rfl, rfl, rfl⟩

end Sys2Proof.Machine
end

