-- ==== Sys2Proof/Laws/Step.lean ====
section
/-! SUPPORT. Everything a step can do, once (30_encoding R85, R88, R91, R92). -/

namespace Sys2Proof.Machine

theorem fetch_iff {s : State} {q : Quad} : s.fetch = .ok q ↔ s.fetches q := by
  constructor
  · intro h
    unfold State.fetch at h
    split at h
    · cases h
    · split at h
      · next hq => cases h; exact ⟨by omega, hq⟩
      · cases h
  · intro h
    unfold State.fetch
    rw [if_neg (by have := h.1; omega), h.2]

theorem fetch_error_iff {s : State} {e : Raise} :
    s.fetch = .error e ↔ (s.pc < 0 ∨ (s.imem.length : Int) ≤ s.pc) ∧ e = ⟨.pcRange, s.pc⟩ := by
  constructor
  · intro h
    unfold State.fetch at h
    split at h
    · cases h; exact ⟨.inl ‹_›, rfl⟩
    · split at h
      · cases h
      · next hq => cases h; rw [List.getElem?_eq_none_iff] at hq; exact ⟨.inr (by omega), rfl⟩
  · rintro ⟨h, rfl⟩
    unfold State.fetch
    split
    · rfl
    · rw [List.getElem?_eq_none (by omega)]

theorem fetches_unique {s : State} {q q' : Quad} (h : s.fetches q) (h' : s.fetches q') : q = q' := by
  have := h.2
  rw [h'.2] at this
  cases this
  rfl

/-- A step of a waiting engine that has an answer executes the read again. -/
theorem step_resume {s : State} {q : Quad} {r : Reg} {a : Answer} {rest : List Answer} (hr : s.run = .waitInput)
    (hq : s.ir = some q) (hd : decode q = .ok (.sysRead r)) (ha : s.answers = a :: rest) :
    step s = exec (.sysRead r) s.resumeRead := by
  simp only [step, hr, resume, ha, hq, Option.map_some, hd, exec]

/-- Everything a step from Running can lead to: a failed fetch, a decode error, an execution. -/
theorem step_running {s t : State} (hr : s.run = .running) (h : step s = .next t) :
    (s.pc < 0 ∨ (s.imem.length : Int) ≤ s.pc) ∧ t = s.takeError s.pc none ⟨.pcRange, s.pc⟩ ∨
    ∃ q, s.fetches q ∧ ((∃ e, decode q = .error e ∧ t = (s.latch q).raise e)
      ∨ ∃ i, decode q = .ok i ∧ exec i (s.latch q) = .next t) := by
  simp only [step, hr, State.fetchDecode] at h
  cases hf : s.fetch with
  | error e =>
    rw [hf] at h
    cases h
    obtain ⟨hp, rfl⟩ := fetch_error_iff.mp hf
    exact .inl ⟨hp, rfl⟩
  | ok q =>
    rw [hf] at h
    refine .inr ⟨q, fetch_iff.mp hf, ?_⟩
    cases hd : decode q with
    | error e => simp only [hd] at h; cases h; exact .inl ⟨e, rfl, rfl⟩
    | ok i => simp only [hd] at h; exact .inr ⟨i, rfl, h⟩

/-- Everything a waiting engine can lead to: the hold, or the read executed with an answer. -/
theorem resume_cases {s t : State} (h : resume s = .next t) :
    (s.answers = [] ∧ t = s) ∨ ∃ a rest q r, s.answers = a :: rest ∧ s.ir = some q ∧ decode q = .ok (.sysRead r)
      ∧ exec (.sysRead r) s.resumeRead = .next t := by
  unfold resume at h
  split at h
  · cases h; exact .inl ⟨‹_›, rfl⟩
  · next a rest ha =>
    split at h
    · next r hr =>
      cases hir : s.ir with
      | none => simp [hir] at hr
      | some q => simp [hir] at hr; exact .inr ⟨a, rest, q, r, ha, rfl, hr, h⟩
    · cases h

/-- The inversion of `step`. -/
theorem step_cases {s t : State} (h : step s = .next t) :
    (s.run = .running ∧ ((s.pc < 0 ∨ (s.imem.length : Int) ≤ s.pc) ∧ t = s.takeError s.pc none ⟨.pcRange, s.pc⟩
      ∨ ∃ q, s.fetches q ∧ ((∃ e, decode q = .error e ∧ t = (s.latch q).raise e)
        ∨ ∃ i, decode q = .ok i ∧ exec i (s.latch q) = .next t))) ∨
    (s.run = .waitInput ∧ ((s.answers = [] ∧ t = s) ∨ ∃ a rest q r, s.answers = a :: rest ∧ s.ir = some q
      ∧ decode q = .ok (.sysRead r) ∧ exec (.sysRead r) s.resumeRead = .next t)) := by
  cases hr : s.run with
  | running => exact .inl ⟨rfl, step_running hr h⟩
  | waitInput => refine .inr ⟨rfl, resume_cases ?_⟩; simpa [step, hr] using h
  | halted => simp [step, hr] at h
  | faulted => simp [step, hr] at h

/-- The live stack lists exactly the cells from SP up, with their contents. -/
theorem mem_liveStack (s : State) (a : Nat) (c : Option Int) :
    (a, c) ∈ s.liveStack ↔ a < s.params.stackCap ∧ s.sp ≤ a ∧ c = s.cell a := by
  simp only [State.liveStack, List.mem_map, List.mem_filter, List.mem_range, decide_eq_true_eq, Prod.mk.injEq]
  constructor
  · rintro ⟨b, ⟨h1, h2⟩, rfl, rfl⟩; exact ⟨h1, h2, rfl⟩
  · rintro ⟨h1, h2, rfl⟩; exact ⟨a, ⟨h1, h2⟩, rfl, rfl⟩

end Sys2Proof.Machine
end

