-- ==== Sys2Proof/Laws/Independence.lean ====
section
/-! SUPPORT. A change of a field an instruction does not look at commutes with it. -/

namespace Sys2Proof.Machine

/-- `g` changes only fields that no register operand, error or jump looks at. -/
structure Blind (g : State → State) : Prop where
  rf : ∀ s, (g s).rf = s.rf
  params : ∀ s, (g s).params = s.params
  pc : ∀ s, (g s).pc = s.pc
  raise : ∀ s e, (g s).raise e = g (s.raise e)
  writeReg : ∀ s r v, (g s).writeReg r v = g (s.writeReg r v)
  setPc : ∀ s v, (g s).setPc v = g (s.setPc v)
  halt : ∀ s, (g s).halt = g s.halt

/-- `g` leaves the stack memory alone as well. -/
structure BlindStack (g : State → State) : Prop extends Blind g where
  st : ∀ s, (g s).st = s.st
  writeCell : ∀ s a v, (g s).writeCell a v = g (s.writeCell a v)

theorem finish_map {g : State → State} (hg : Blind g) {s t : State} {x x' : Except Raise State} (hx : x' = x.map g)
    (h : s.finish x = .next t) : (g s).finish x' = .next (g t) := by
  subst hx
  cases x with
  | ok u => cases h; rfl
  | error e => cases h; show Host.Outcome.next ((g s).raise e) = _; rw [hg.raise]

theorem bind_map {α : Type} {g : State → State} {x : Except Raise α} {f f' : α → Except Raise State}
    (h : ∀ a, f' a = (f a).map g) : (x >>= f') = (x >>= f).map g := by
  cases x with
  | ok a => exact h a
  | error e => rfl

theorem bind_map_state {g : State → State} {x x' : Except Raise State} {f f' : State → Except Raise State}
    (hx : x' = x.map g) (h : ∀ a, f' (g a) = (f a).map g) : (x' >>= f') = (x >>= f).map g := by
  subst hx
  cases x with
  | ok a => exact h a
  | error e => rfl

theorem readReg_blind {g : State → State} (hg : Blind g) (s : State) (r : Reg) : (g s).readReg r = s.readReg r := by
  simp only [State.readReg, hg.rf]

theorem checkWord_blind {g : State → State} (hg : Blind g) (s : State) (v : Int) :
    (g s).checkWord v = s.checkWord v := by
  simp only [State.checkWord, hg.params]

theorem inStack_blind {g : State → State} (hg : Blind g) (s : State) (a : Int) : (g s).inStack a = s.inStack a := by
  simp only [State.inStack, hg.params]

theorem cell_blind {g : State → State} (hg : BlindStack g) (s : State) (a : Nat) : (g s).cell a = s.cell a := by
  simp only [State.cell, hg.st, hg.params]

theorem readCell_blind {g : State → State} (hg : BlindStack g) (s : State) (c : Cause) (a : Int) :
    (g s).readCell c a = s.readCell c a := by
  simp only [State.readCell, cell_blind hg, inStack_blind hg.toBlind]

theorem resolve_blind {g : State → State} (hg : BlindStack g) (s : State) :
    ∀ l b, (g s).resolve l b = s.resolve l b := by
  intro l
  induction l with
  | zero => intro b; rfl
  | succ l ih =>
    intro b
    rw [State.resolve_succ, State.resolve_succ, State.linkRead, State.linkRead, readCell_blind hg]
    simp only [ih]

theorem memWrite_blind {g : State → State} (hg : BlindStack g) (s : State) (a v : Int) :
    (g s).memWrite a v = (s.memWrite a v).map g := by
  simp only [State.memWrite, inStack_blind hg.toBlind, hg.writeCell]
  cases s.inStack a <;> rfl

theorem unary_map {g : State → State} (hg : Blind g) {s t : State} {r : Reg} {f : Int → Except Raise Int}
    (h : s.unary r f = .next t) : (g s).unary r f = .next (g t) := by
  refine finish_map hg ?_ h
  rw [readReg_blind hg]
  exact bind_map fun x => bind_map fun v => by rw [hg.writeReg]; rfl

theorem binary_map {g : State → State} (hg : Blind g) {s t : State} {r a b : Reg} {f : Int → Int → Except Raise Int}
    (h : s.binary r a b f = .next t) : (g s).binary r a b f = .next (g t) := by
  refine finish_map hg ?_ h
  rw [readReg_blind hg, readReg_blind hg]
  exact bind_map fun x => bind_map fun y => bind_map fun v => by rw [hg.writeReg]; rfl

/-- The instructions that touch no cell, no pointer but PC, no output and no answer. -/
theorem exec_map {g : State → State} (hg : Blind g) {i : Instr} {s t : State} (h : exec i s = .next t)
    (hi : match i with
      | .rtn | .lod _ _ _ | .sto _ _ _ | .cal _ _ | .inc _ | .sysWrite _ | .sysRead _ => False
      | _ => True) :
    exec i (g s) = .next (g t) := by
  cases i with
  | lit r v => exact finish_map hg (s := s) (x := .ok _) (x' := .ok ((g s).writeReg r v)) (by rw [hg.writeReg]; rfl) h
  | jmp m => exact finish_map hg (s := s) (x := .ok _) (x' := .ok ((g s).setPc m)) (by rw [hg.setPc]; rfl) h
  | sysHalt => exact finish_map hg (s := s) (x := .ok _) (x' := .ok (g s).halt) (by rw [hg.halt]; rfl) h
  | jpc r m =>
    refine finish_map hg ?_ h
    rw [readReg_blind hg]
    exact bind_map fun v => by rw [hg.setPc]; split <;> rfl
  | neg r =>
    simp only [exec, execNeg, checkWord_blind hg] at *
    exact unary_map hg h
  | odd r => exact unary_map hg h
  | add r a b =>
    simp only [exec, execAdd, checkWord_blind hg] at *
    exact binary_map hg h
  | sub r a b =>
    simp only [exec, execSub, checkWord_blind hg] at *
    exact binary_map hg h
  | mul r a b =>
    simp only [exec, execMul, checkWord_blind hg] at *
    exact binary_map hg h
  | div r a b =>
    simp only [exec, execDiv, checkWord_blind hg] at *
    exact binary_map hg h
  | mod r a b =>
    simp only [exec, execMod, hg.params] at *
    exact binary_map hg h
  | eql r a b | neq r a b | lss r a b | leq r a b | gtr r a b | geq r a b => exact binary_map hg h
  | _ => exact hi.elim

theorem rtn_map {g : State → State} (hg : BlindStack g) (hbp : ∀ s, (g s).bp = s.bp)
    (hset : ∀ s a b c, (((g s).setSp a).setBp b).setPc c = g (((s.setSp a).setBp b).setPc c)) {s t : State}
    (h : exec .rtn s = .next t) : exec .rtn (g s) = .next (g t) := by
  refine finish_map hg.toBlind ?_ h
  simp only [State.checkSp, State.memRead, readCell_blind hg, hg.params, hbp]
  exact bind_map fun x => bind_map fun y => bind_map fun v => by rw [hset]; rfl

theorem lod_map {g : State → State} (hg : BlindStack g) (hbp : ∀ s, (g s).bp = s.bp) {s t : State} {r : Reg} {l : Nat}
    {m : Int} (h : exec (.lod r l m) s = .next t) : exec (.lod r l m) (g s) = .next (g t) := by
  refine finish_map hg.toBlind ?_ h
  simp only [State.effectiveAddress, State.memRead, readCell_blind hg, resolve_blind hg, hbp]
  exact bind_map fun x => bind_map fun y => by rw [hg.writeReg]; rfl

theorem sto_map {g : State → State} (hg : BlindStack g) (hbp : ∀ s, (g s).bp = s.bp) {s t : State} {r : Reg} {l : Nat}
    {m : Int} (h : exec (.sto r l m) s = .next t) : exec (.sto r l m) (g s) = .next (g t) := by
  refine finish_map hg.toBlind ?_ h
  simp only [State.effectiveAddress, State.checkAddr, inStack_blind hg.toBlind, resolve_blind hg, hbp,
    readReg_blind hg.toBlind, memWrite_blind hg]
  exact bind_map fun x => bind_map fun y => bind_map fun y => rfl

theorem cal_map {g : State → State} (hg : BlindStack g) (hbp : ∀ s, (g s).bp = s.bp) (hsp : ∀ s, (g s).sp = s.sp)
    (hset : ∀ s b c, ((g s).setBp b).setPc c = g ((s.setBp b).setPc c)) {s t : State} {l : Nat} {m : Int}
    (h : exec (.cal l m) s = .next t) : exec (.cal l m) (g s) = .next (g t) := by
  refine finish_map hg.toBlind ?_ h
  simp only [resolve_blind hg, hbp, hsp, hg.pc]
  exact bind_map fun x => bind_map_state (memWrite_blind hg _ _ _) fun s1 =>
    bind_map_state (memWrite_blind hg _ _ _) fun s2 => bind_map_state (memWrite_blind hg _ _ _) fun s3 => by
      rw [hset]; rfl

theorem inc_map {g : State → State} (hg : Blind g) (hsp : ∀ s, (g s).sp = s.sp)
    (hset : ∀ s b, (g s).setSp b = g (s.setSp b)) {s t : State} {m : Int} (h : exec (.inc m) s = .next t) :
    exec (.inc m) (g s) = .next (g t) := by
  refine finish_map hg ?_ h
  simp only [State.checkSp, hsp, hg.params]
  exact bind_map fun x => by rw [hset]; rfl

theorem sysWrite_map {g : State → State} (hg : Blind g) (hset : ∀ s r b, (g s).emit r b = g (s.emit r b))
    {s t : State} {r : Reg} (h : exec (.sysWrite r) s = .next t) : exec (.sysWrite r) (g s) = .next (g t) := by
  refine finish_map hg ?_ h
  rw [readReg_blind hg]
  exact bind_map fun x => by rw [hset]; rfl

theorem sysRead_map {g : State → State} (hg : Blind g) (ha : ∀ s, (g s).answers = s.answers)
    (hset : ∀ s b, (g s).setAnswers b = g (s.setAnswers b)) (hw : ∀ s, (g s).wait = g s.wait) {s t : State} {r : Reg}
    (h : exec (.sysRead r) s = .next t) : exec (.sysRead r) (g s) = .next (g t) := by
  simp only [exec, execSysRead, ha] at *
  split at h
  · cases h; rw [hw]
  · next a rest _ =>
    rw [hset]
    refine finish_map hg ?_ h
    simp only [State.checkAnswer, hg.params]
    exact bind_map fun x => by rw [hg.writeReg]; rfl

end Sys2Proof.Machine
end

