-- ==== Sys2Proof/Laws/Words.lean ====
section
/-! SUPPORT. Which integers are words (00_scope R9), and truncated division (45_arithmetic R120). -/

namespace Sys2Proof.Machine

theorem contains_zero {b : WordBits} : b.contains 0 = true := by
  cases b with
  | unbounded => rfl
  | bounded n =>
    simp only [WordBits.contains, decide_eq_true_eq]
    have := Nat.two_pow_pos (n - 1)
    omega

theorem contains_neg_one {b : WordBits} : b.contains (-1) = true := by
  cases b with
  | unbounded => rfl
  | bounded n =>
    simp only [WordBits.contains, decide_eq_true_eq]
    have := Nat.two_pow_pos (n - 1)
    omega

theorem contains_one {b : WordBits} (hb : b.admitted = true) : b.contains 1 = true := by
  cases b with
  | unbounded => rfl
  | bounded n =>
    simp only [WordBits.contains, decide_eq_true_eq, WordBits.admitted] at *
    have : 2 ^ 1 ≤ 2 ^ (n - 1) := Nat.pow_le_pow_right (by omega) (by omega)
    omega

/-- The words from -1 up to a word are words. -/
theorem contains_between {b : WordBits} {x y : Int} (h : b.contains y = true) (h0 : -1 ≤ x) (h1 : x ≤ y) :
    b.contains x = true := by
  cases b with
  | unbounded => rfl
  | bounded n =>
    simp only [WordBits.contains, decide_eq_true_eq] at *
    have := Nat.two_pow_pos (n - 1)
    omega

theorem contains_truth {b : WordBits} (hb : b.admitted = true) (c : Bool) : b.contains (truth c) = true := by
  cases c
  · exact contains_zero
  · exact contains_one hb

/-- A remainder is smaller than its divisor. -/
theorem abs_tmod_lt (x : Int) {y : Int} (hy : y ≠ 0) : |x.tmod y| < |y| := by
  rw [← Int.natCast_natAbs, ← Int.natCast_natAbs, Int.natAbs_tmod]
  have := Nat.mod_lt x.natAbs (show 0 < y.natAbs by omega)
  omega

/-- A remainder has the sign of the dividend. -/
theorem tmod_mul_nonneg (x y : Int) : 0 ≤ x.tmod y * x := by
  rcases le_total 0 x with hx | hx
  · have := Int.tmod_nonneg y hx
    positivity
  · have : x.tmod y ≤ 0 := by
      have := Int.tmod_nonneg y (show 0 ≤ -x by omega)
      rw [Int.neg_tmod] at this
      omega
    exact mul_nonneg_of_nonpos_of_nonpos this hx

/-- The remainder by a word is a word. -/
theorem contains_tmod {b : WordBits} {x y : Int} (hy : b.contains y = true) (h0 : y ≠ 0) :
    b.contains (x.tmod y) = true := by
  have hlt := abs_tmod_lt x h0
  generalize x.tmod y = z at *
  cases b with
  | unbounded => rfl
  | bounded n =>
    simp only [WordBits.contains, decide_eq_true_eq] at *
    rcases abs_cases z with ⟨h1, h2⟩ | ⟨h1, h2⟩ <;> rcases abs_cases y with ⟨h3, h4⟩ | ⟨h3, h4⟩ <;> omega

theorem contains_tmod_two {b : WordBits} (hb : b.admitted = true) (x : Int) : b.contains (x.tmod 2) = true := by
  have hlt := abs_tmod_lt x (show (2 : Int) ≠ 0 by decide)
  have : x.tmod 2 = 0 ∨ x.tmod 2 = 1 ∨ x.tmod 2 = -1 := by
    generalize x.tmod 2 = z at *
    rw [abs_two] at hlt
    rcases abs_cases z with ⟨h1, h2⟩ | ⟨h1, h2⟩ <;> omega
  rcases this with h | h | h <;> rw [h]
  · exact contains_zero
  · exact contains_one hb
  · exact contains_neg_one

/-- Quotient and remainder of the division truncated toward zero are the only pair with the three properties of
45_arithmetic R120. -/
theorem tdiv_tmod_unique {x y k m : Int} (hy : y ≠ 0) (h : x = k * y + m) (hm : |m| < |y|) (hs : 0 ≤ m * x) :
    x.tdiv y = k ∧ x.tmod y = m := by
  have h1 := Int.mul_tdiv_add_tmod x y
  have h2 := abs_tmod_lt x hy
  have h3 := tmod_mul_nonneg x y
  generalize x.tdiv y = q at *
  generalize x.tmod y = r at *
  have hd : (k - q) * y = r - m := by linarith
  have hlt : |r - m| < |y| := by
    rcases lt_trichotomy x 0 with hx | hx | hx
    · have r1 : r ≤ 0 := by by_contra hc; nlinarith
      have m1 : m ≤ 0 := by by_contra hc; nlinarith
      rw [abs_of_nonpos r1] at h2
      rw [abs_of_nonpos m1] at hm
      rw [abs_lt]; constructor <;> linarith
    · subst hx
      have hk : |k * y| < |y| := by
        have : k * y = -m := by linarith
        rw [this, abs_neg]; exact hm
      rw [abs_mul] at hk
      have k0 : k = 0 := by
        by_contra hc
        nlinarith [abs_nonneg y, Int.one_le_abs hc]
      have m0 : m = 0 := by subst k0; linarith
      subst m0; simpa using h2
    · have r1 : 0 ≤ r := by by_contra hc; nlinarith
      have m1 : 0 ≤ m := by by_contra hc; nlinarith
      rw [abs_of_nonneg r1] at h2
      rw [abs_of_nonneg m1] at hm
      rw [abs_lt]; constructor <;> linarith
  have : k = q := by
    by_contra hne
    have hkq : 1 ≤ |k - q| := Int.one_le_abs (sub_ne_zero.mpr hne)
    have habs : |k - q| * |y| = |r - m| := by rw [← abs_mul, hd]
    nlinarith [abs_nonneg y]
  exact ⟨this.symm, by subst this; linarith⟩

end Sys2Proof.Machine
end

