-- ==== Sys2Proof/Laws/Invariant.lean ====
section
/-! SUPPORT. Each named operation keeps the invariant (`State.Inv`). -/

namespace Sys2Proof.Machine

/-- Under ZERO no cell is empty. -/
theorem cell_zero {s : State} (hz : s.params.initContent = .zero) (a : Nat) : s.cell a ≠ none := by
  unfold State.cell
  generalize s.st = m
  have : s.params.initial = some 0 := by simp [Params.initial, hz]
  rw [this]
  induction m with
  | nil => simp [Memory.read]
  | cons c m ih => obtain ⟨k, v⟩ := c; simp only [Memory.read]; split <;> simp_all

/-- What a cell holds is a word. -/
theorem State.Inv.cell_word {s : State} (hi : s.Inv) {a : Nat} {x : Int} (h : s.cell a = some x) : s.isWord x := by
  have key : ∀ (m : Memory) (a : Nat), (∀ c ∈ m, s.isWord c.2) → Memory.read s.params.initial m a = some x →
      s.isWord x := by
    intro m a hm hr
    induction m with
    | nil =>
      simp only [Memory.read, Params.initial] at hr
      split at hr
      · cases hr
      · cases hr; exact contains_zero
    | cons c m ihm =>
      obtain ⟨k, v⟩ := c
      simp only [Memory.read] at hr
      split at hr
      · cases hr; exact hm _ List.mem_cons_self
      · exact ihm (fun c hc => hm c (List.mem_cons_of_mem _ hc)) hr
  exact key _ _ (fun c hc => (hi.cells c hc).2) h

theorem State.Inv.readReg_word {s : State} (h : s.Inv) {r : Reg} {v : Int} (hv : s.readReg r = .ok v) : s.isWord v :=
  h.regs r v (State.readReg_ok hv)

/-- The resolver leads from words to words. -/
theorem State.Inv.resolve_word {s : State} (hi : s.Inv) :
    ∀ (l : Nat) (b c : Int), s.isWord b → s.resolve l b = .ok c → s.isWord c := by
  intro l
  induction l with
  | zero => intro b c hb h; cases h; exact hb
  | succ l ih =>
    intro b c _ h
    obtain ⟨x, h1, h2⟩ := Except.bindOk h
    exact ih x c (hi.cell_word (State.readCell_ok h1).2) h2

/-- A value from -1 to STACK_CAP is a word. -/
theorem State.Inv.pointer_word {s : State} (h : s.Inv) {v : Int} (h0 : -1 ≤ v) (h1 : v ≤ s.params.stackCap) :
    s.isWord v := contains_between h.params.2.2.1 h0 h1

theorem State.Inv.writeReg {s : State} (h : s.Inv) (r : Reg) {v : Int} (hv : s.isWord v) : (s.writeReg r v).Inv :=
  { h with
    regs := by
      intro q w hq
      rw [State.get_writeReg] at hq
      split at hq
      · cases hq; exact hv
      · exact h.regs q w hq
    filled := by
      intro hz q
      rw [State.get_writeReg]
      split
      · rfl
      · exact h.filled hz q }

theorem State.Inv.writeCell {s : State} (h : s.Inv) {a v : Int} (ha : s.inArray a) (hv : s.isWord v) :
    (s.writeCell a.toNat v).Inv :=
  { h with
    canonical := Memory.wf_write h.canonical _ _
    cells := by
      intro c hc
      rcases Memory.mem_write hc with rfl | hc
      · exact ⟨by show a.toNat < s.params.stackCap; have := ha.1; have := ha.2; omega, hv⟩
      · exact h.cells c hc }

theorem State.Inv.setPc {s : State} (h : s.Inv) (hr : s.run = .running) {v : Int} (hv : s.isWord v) :
    (s.setPc v).Inv :=
  { h with pcWord := hv, waiting := by intro hw; simp [hr] at hw }

theorem State.Inv.setBp {s : State} (h : s.Inv) {v : Int} (hv : s.isWord v) : (s.setBp v).Inv := { h with bpWord := hv }

theorem State.Inv.setSp {s : State} (h : s.Inv) {v : Int} (hv : 0 ≤ v ∧ v ≤ s.params.stackCap) : (s.setSp v).Inv :=
  { h with spRange := hv }

theorem State.Inv.setAnswers {s : State} (h : s.Inv) (a : List Answer) : (s.setAnswers a).Inv := { h with }

theorem State.Inv.emit {s : State} (h : s.Inv) (r : Reg) {v : Int} (hv : s.isWord v) : (s.emit r v).Inv :=
  { h with
    events := by
      intro e he
      simp only [State.emit_out, List.mem_append, List.mem_singleton] at he
      rcases he with he | rfl
      · exact h.events e he
      · exact hv }

theorem State.Inv.halt {s : State} (h : s.Inv) (hr : s.run = .running) : s.halt.Inv :=
  { h with
    errRun := by have := h.errRun; simp [hr] at this; simp [this]
    waiting := by intro hw; simp at hw }

theorem State.Inv.raise {s : State} (h : s.Inv) (hp : s.isWord (s.pc - 1)) (e : Raise) : (s.raise e).Inv :=
  { h with
    pcWord := hp
    errRun := by simp
    waiting := by intro hw; simp at hw }

/-- The state a meaning starts from: Running, and PC - 1 is the index of an instruction of the program. -/
structure State.Dispatched (s : State) : Prop extends s.Inv where
  running : s.run = .running
  indexWord : s.isWord (s.pc - 1)

theorem State.Dispatched.finish {s t : State} (h : s.Dispatched) {x : Except Raise State}
    (hx : ∀ u, x = .ok u → u.Inv) (ht : s.finish x = .next t) : t.Inv := by
  rcases State.finish_cases ht with rfl | ⟨e, _, rfl⟩
  · exact hx t rfl
  · exact h.toInv.raise h.indexWord e

theorem State.Dispatched.unary {s t : State} (h : s.Dispatched) {r : Reg} {f : Int → Except Raise Int}
    (hf : ∀ x v, s.isWord x → f x = .ok v → s.isWord v) (ht : s.unary r f = .next t) : t.Inv := by
  refine h.finish (fun u hu => ?_) ht
  obtain ⟨x, hx, hu⟩ := Except.bindOk hu
  obtain ⟨v, hv, hu⟩ := Except.bindOk hu
  cases hu
  exact h.toInv.writeReg r (hf x v (h.toInv.readReg_word hx) hv)

theorem State.Dispatched.binary {s t : State} (h : s.Dispatched) {r a b : Reg} {f : Int → Int → Except Raise Int}
    (hf : ∀ x y v, s.isWord x → s.isWord y → f x y = .ok v → s.isWord v) (ht : s.binary r a b f = .next t) :
    t.Inv := by
  refine h.finish (fun u hu => ?_) ht
  obtain ⟨x, hx, hu⟩ := Except.bindOk hu
  obtain ⟨y, hy, hu⟩ := Except.bindOk hu
  obtain ⟨v, hv, hu⟩ := Except.bindOk hu
  cases hu
  exact h.toInv.writeReg r (hf x y v (h.toInv.readReg_word hx) (h.toInv.readReg_word hy) hv)

/-- Fetch leads to a dispatched state. -/
theorem State.Inv.latch {s : State} (hi : s.Inv) (hr : s.run = .running) {q : Quad} (hf : s.fetches q) :
    (s.latch q).Dispatched where
  toInv := { hi with
    pcWord := by
      have h1 := (List.getElem?_eq_some_iff.mp hf.2).1
      have := hf.1
      have := hi.progLen
      exact contains_between hi.params.2.2.2 (by show -1 ≤ s.pc + 1; omega) (by show s.pc + 1 ≤ _; omega)
    waiting := by intro h; simp [hr] at h }
  running := hr
  indexWord := by
    show s.isWord (s.pc + 1 - 1)
    rw [Int.add_sub_cancel]; exact hi.pcWord

end Sys2Proof.Machine
end

