-- ==== Sys2Proof/Tests/Slice0.lean ====
section
/-! SUPPORT. Tests whose results come from the spec's worked examples (the Example lines of 41 to 46, and
95_test_vectors), and for every statement with hypotheses a witness that meets them. -/

namespace Sys2Proof.Tests

open Sys2Proof Sys2Proof.Machine

/-! ## Helpers -/

/-- The parameters of 95_test_vectors section 0: 32 bits, 100 cells, EMPTY. -/
def vector : Params := { Params.default with initContent := .empty }

/-- The smallest words, the largest stack for them, EMPTY. -/
def narrow : Params := { wordBits := .bounded 8, stackCap := 127, codeCap := 126, initContent := .empty }

/-- Reset with a program, the parameters of the vectors, and answers. -/
def start (image : List Quad) (answers : List Answer) : State := State.resetWith vector image answers

/-- A state of the vectors: registers, pointers and cells set, the rest as after reset. -/
def pre (regs : List (Reg × Int)) (pc sp bp : Int) (cells : List (Nat × Int)) : State :=
  let s := regs.foldl (fun s p => s.writeReg p.1 p.2) (start [] [])
  cells.foldl (fun s p => s.writeCell p.1 p.2) (((s.setPc pc).setSp sp).setBp bp)

/-- The state an outcome leads to, or the one given. -/
def after (s : State) : Result → State
  | .next t => t
  | _ => s

/-- Execute an instruction. -/
def run (i : Instr) (s : State) : State := after s (exec i s)

/-- Make one step. -/
def stepped (s : State) : State := after s (step s)

/-- Whether a step occurs. -/
def steps (s : State) : Bool :=
  match step s with
  | .next _ => true
  | _ => false

/-- Cause and info of the error record. -/
def raised (s : State) : Option (Cause × Int) := s.err.map (fun e => (e.cause, e.info))

theorem exec_run (i : Instr) (s : State) : exec i s = .next (run i s) := by
  obtain ⟨t, h⟩ := exec_total i s
  simp only [run, h, after]

theorem step_stepped {s : State} (h : steps s = true) : step s = .next (stepped s) := by
  unfold steps at h
  unfold stepped
  cases hs : step s with
  | next t => rfl
  | fault f => rw [hs] at h; cases h
  | refused r => rw [hs] at h; cases h

/-! ## Decoding: quadruples written out from 30_encoding R73 and R76 -/

theorem test_decode_load_store : decode ⟨1, 3, 0, -7⟩ = .ok (.lit 3 (-7)) ∧ decode ⟨3, 1, 2, 3⟩ = .ok (.lod 1 2 3)
    ∧ decode ⟨4, 6, 0, -1⟩ = .ok (.sto 6 0 (-1)) := by decide

theorem test_decode_activation : decode ⟨2, 0, 0, 0⟩ = .ok .rtn ∧ decode ⟨5, 0, 1, 8⟩ = .ok (.cal 1 8)
    ∧ decode ⟨6, 0, 0, 4⟩ = .ok (.inc 4) := by decide

theorem test_decode_jump : decode ⟨7, 0, 0, 7⟩ = .ok (.jmp 7) ∧ decode ⟨8, 4, 0, 9⟩ = .ok (.jpc 4 9) := by decide

theorem test_decode_sys : decode ⟨9, 2, 0, 1⟩ = .ok (.sysWrite 2) ∧ decode ⟨9, 5, 0, 2⟩ = .ok (.sysRead 5)
    ∧ decode ⟨9, 0, 0, 3⟩ = .ok .sysHalt := by decide

theorem test_decode_arithmetic : decode ⟨10, 1, 0, 0⟩ = .ok (.neg 1) ∧ decode ⟨11, 2, 0, 1⟩ = .ok (.add 2 0 1)
    ∧ decode ⟨12, 0, 3, 2⟩ = .ok (.sub 0 3 2) ∧ decode ⟨13, 3, 1, 2⟩ = .ok (.mul 3 1 2)
    ∧ decode ⟨14, 2, 0, 1⟩ = .ok (.div 2 0 1) ∧ decode ⟨15, 6, 0, 0⟩ = .ok (.odd 6)
    ∧ decode ⟨16, 4, 5, 6⟩ = .ok (.mod 4 5 6) := by decide

theorem test_decode_relational : decode ⟨17, 2, 0, 1⟩ = .ok (.eql 2 0 1) ∧ decode ⟨18, 4, 0, 3⟩ = .ok (.neq 4 0 3)
    ∧ decode ⟨19, 2, 0, 1⟩ = .ok (.lss 2 0 1) ∧ decode ⟨20, 2, 1, 0⟩ = .ok (.leq 2 1 0)
    ∧ decode ⟨21, 6, 5, 4⟩ = .ok (.gtr 6 5 4) ∧ decode ⟨22, 0, 1, 2⟩ = .ok (.geq 0 1 2) := by decide

/-- Unused fields are ignored (R75). -/
theorem test_decode_ignores_unused : decode ⟨2, 9, -1, 77⟩ = .ok .rtn ∧ decode ⟨6, 9, -1, 4⟩ = .ok (.inc 4)
    ∧ decode ⟨9, 9, -1, 3⟩ = .ok .sysHalt ∧ decode ⟨1, 0, -5, 9⟩ = .ok (.lit 0 9) := by decide

/-- The order of the checks (60_exceptions R146; 95_test_vectors 1.5: a bad opcode comes before every field check). -/
theorem test_decode_errors : decode ⟨99, 9, 0, 0⟩ = .error ⟨.badOpcode, 99⟩ ∧ decode ⟨-1, 0, 0, 0⟩ = .error ⟨.badOpcode, -1⟩
    ∧ decode ⟨9, 9, 0, 4⟩ = .error ⟨.badSys, 4⟩ ∧ decode ⟨11, 7, 8, 9⟩ = .error ⟨.regIndex, 7⟩
    ∧ decode ⟨11, 6, -1, 9⟩ = .error ⟨.regIndex, -1⟩ ∧ decode ⟨3, 7, -1, 0⟩ = .error ⟨.regIndex, 7⟩
    ∧ decode ⟨3, 6, -1, 0⟩ = .error ⟨.negLevel, -1⟩ := by decide

/-- The model's table word (log entry 13) of LIT 3 0 -7 and of SUB 0 1 2. -/
theorem test_table_word :
    decodeTableWord 128 (1 + 3 * 2 ^ 32 + 0xFFFFFFF9 * 2 ^ 96) = some (.lit 3 (-7)) ∧
    decodeTableWord 128 (12 + 2 ^ 64 + 2 * 2 ^ 96) = some (.sub 0 1 2) := by decide

/-! ## Well-formedness: each check refuses an ill-formed term -/

theorem test_wellFormed_refuses :
    Instr.wellFormed (.bounded 8) (.lit 0 128) = false ∧ Instr.wellFormed (.bounded 8) (.lod 0 128 0) = false
    ∧ Instr.wellFormed (.bounded 8) (.lod 0 0 (-129)) = false ∧ Instr.wellFormed (.bounded 8) (.sto 0 128 0) = false
    ∧ Instr.wellFormed (.bounded 8) (.sto 0 0 128) = false ∧ Instr.wellFormed (.bounded 8) (.cal 128 0) = false
    ∧ Instr.wellFormed (.bounded 8) (.cal 0 128) = false ∧ Instr.wellFormed (.bounded 8) (.inc (-129)) = false
    ∧ Instr.wellFormed (.bounded 8) (.jmp 128) = false ∧ Instr.wellFormed (.bounded 8) (.jpc 0 128) = false := by decide

theorem test_quad_wellFormed_refuses :
    ¬ Quad.WellFormed (.bounded 8) ⟨128, 0, 0, 0⟩ ∧ ¬ Quad.WellFormed (.bounded 8) ⟨0, -129, 0, 0⟩
    ∧ ¬ Quad.WellFormed (.bounded 8) ⟨0, 0, 128, 0⟩ ∧ ¬ Quad.WellFormed (.bounded 8) ⟨0, 0, 0, -129⟩ := by decide

/-! ## Instructions: the Example and Corner cases lines of each rule -/

theorem test_lit : (run (.lit 3 (-7)) (pre [] 1 100 99 [])).rf.get 3 = some (-7) := by decide

theorem test_lod : (run (.lod 0 0 3) (pre [] 1 100 99 [(96, 5)])).rf.get 0 = some 5
    ∧ (run (.lod 0 1 3) (pre [] 1 92 95 [(95, 99), (96, 5)])).rf.get 0 = some 5 := by decide

theorem test_lod_unwritten : raised (run (.lod 0 0 3) (pre [] 1 100 99 [])) = some (.cellUnwritten, 96)
    ∧ raised (run (.lod 0 0 (-1)) (pre [] 1 100 99 [])) = some (.stackRange, 100)
    ∧ raised (run (.lod 0 1 0) (pre [] 1 100 (-5) [])) = some (.resolveRange, -5) := by decide

theorem test_sto : (run (.sto 0 0 3) (pre [(0, 5)] 1 100 99 [])).cell 96 = some 5 := by decide

/-- The range comes before the register (R98). -/
theorem test_sto_order : raised (run (.sto 0 0 100) (pre [] 1 100 99 [])) = some (.stackRange, -1)
    ∧ raised (run (.sto 2 0 3) (pre [] 1 100 99 [])) = some (.regUnwritten, 2) := by decide

theorem test_rtn : (run .rtn (pre [] 5 92 95 [(94, 99), (93, 11)])).sp = 96
    ∧ (run .rtn (pre [] 5 92 95 [(94, 99), (93, 11)])).bp = 99
    ∧ (run .rtn (pre [] 5 92 95 [(94, 99), (93, 11)])).pc = 11 := by decide

theorem test_rtn_initial_frame : raised (run .rtn (pre [] 1 100 99 [])) = some (.cellUnwritten, 98)
    ∧ raised (run .rtn (pre [] 1 100 100 [])) = some (.spRange, 101) := by decide

theorem test_cal : (run (.cal 0 1) (pre [] 11 96 99 [])).cell 95 = some 99
    ∧ (run (.cal 0 1) (pre [] 11 96 99 [])).cell 94 = some 99
    ∧ (run (.cal 0 1) (pre [] 11 96 99 [])).cell 93 = some 11
    ∧ (run (.cal 0 1) (pre [] 11 96 99 [])).bp = 95 ∧ (run (.cal 0 1) (pre [] 11 96 99 [])).pc = 1
    ∧ (run (.cal 0 1) (pre [] 11 96 99 [])).sp = 96 := by decide

/-- A CAL that overflows writes none of its three cells (R102). -/
theorem test_cal_overflow : raised (run (.cal 0 1) (pre [] 11 2 99 [])) = some (.stackRange, -1)
    ∧ (run (.cal 0 1) (pre [] 11 2 99 [])).cell 1 = none ∧ (run (.cal 0 1) (pre [] 11 2 99 [])).pc = 10 := by decide

theorem test_inc : (run (.inc 4) (pre [] 1 96 99 [])).sp = 92
    ∧ raised (run (.inc 97) (pre [] 1 96 99 [])) = some (.spRange, -1) := by decide

theorem test_jmp : (run (.jmp 7) (pre [] 1 100 99 [])).pc = 7 := by decide

theorem test_jpc : (run (.jpc 4 9) (pre [(4, 0)] 6 100 99 [])).pc = 9
    ∧ (run (.jpc 4 9) (pre [(4, 1)] 6 100 99 [])).pc = 6 := by decide

theorem test_sys_write : (run (.sysWrite 2) (pre [(2, 8)] 1 100 99 [])).out = [⟨2, 8⟩] := by decide

theorem test_sys_read : (stepped (start [⟨9, 0, 0, 2⟩] [.value 3])).rf.get 0 = some 3
    ∧ (stepped (start [⟨9, 0, 0, 2⟩] [])).run = .waitInput ∧ (stepped (start [⟨9, 0, 0, 2⟩] [])).pc = 0
    ∧ (stepped ((stepped (start [⟨9, 0, 0, 2⟩] [])).answer (.value 3))).rf.get 0 = some 3 := by decide

/-- WORD_MAX + 1 is no word (R114); PC stays at the read (60_exceptions R161). -/
theorem test_sys_read_errors :
    raised (stepped (start [⟨9, 0, 0, 2⟩] [.value 2147483648])) = some (.inputRange, 2147483648)
    ∧ raised (stepped (start [⟨9, 0, 0, 2⟩] [.unavailable])) = some (.inputUnavailable, 0)
    ∧ (stepped (start [⟨9, 0, 0, 2⟩] [.unavailable])).pc = 0 := by decide

theorem test_sys_halt : (run .sysHalt (pre [] 5 100 99 [])).halted = true
    ∧ (run .sysHalt (pre [] 5 100 99 [])).pc = 5 := by decide

theorem test_neg : (run (.neg 1) (pre [(1, 5)] 1 100 99 [])).rf.get 1 = some (-5)
    ∧ raised (run (.neg 1) (pre [(1, -2147483648)] 1 100 99 [])) = some (.overflow, 2147483648) := by decide

theorem test_add : (run (.add 2 0 1) (pre [(0, 5), (1, 3)] 1 100 99 [])).rf.get 2 = some 8
    ∧ raised (run (.add 2 0 1) (pre [(0, 2147483647), (1, 1)] 1 100 99 [])) = some (.overflow, 2147483648) := by decide

theorem test_sub : (run (.sub 0 0 2) (pre [(0, 3), (2, 1)] 1 100 99 [])).rf.get 0 = some 2
    ∧ raised (run (.sub 2 0 1) (pre [(0, -2147483648), (1, 1)] 1 100 99 [])) = some (.overflow, -2147483649) := by decide

theorem test_mul : (run (.mul 3 1 2) (pre [(1, -4), (2, 6)] 1 100 99 [])).rf.get 3 = some (-24)
    ∧ raised (run (.mul 2 0 1) (pre [(0, 65536), (1, 65536)] 1 100 99 [])) = some (.overflow, 4294967296) := by decide

/-- The rows of 45_arithmetic R128. -/
theorem test_div : (run (.div 2 0 1) (pre [(0, -7), (1, 2)] 1 100 99 [])).rf.get 2 = some (-3)
    ∧ (run (.div 2 0 1) (pre [(0, 7), (1, -2)] 1 100 99 [])).rf.get 2 = some (-3)
    ∧ (run (.div 2 0 1) (pre [(0, -7), (1, -2)] 1 100 99 [])).rf.get 2 = some 3 := by decide

theorem test_div_errors : raised (run (.div 2 0 1) (pre [(0, 1), (1, 0)] 1 100 99 [])) = some (.divZero, 1)
    ∧ raised (run (.div 2 0 1) (pre [(0, -2147483648), (1, -1)] 1 100 99 [])) = some (.overflow, 2147483648) := by decide

theorem test_odd : (run (.odd 0) (pre [(0, -3)] 1 100 99 [])).rf.get 0 = some (-1)
    ∧ (run (.odd 0) (pre [(0, 4)] 1 100 99 [])).rf.get 0 = some 0
    ∧ (run (.odd 0) (pre [(0, 7)] 1 100 99 [])).rf.get 0 = some 1 := by decide

theorem test_mod : (run (.mod 2 0 1) (pre [(0, -7), (1, 2)] 1 100 99 [])).rf.get 2 = some (-1)
    ∧ (run (.mod 2 0 1) (pre [(0, 7), (1, -2)] 1 100 99 [])).rf.get 2 = some 1
    ∧ (run (.mod 0 0 0) (pre [(0, 3)] 1 100 99 [])).rf.get 0 = some 0 := by decide

theorem test_mod_errors : raised (run (.mod 0 0 0) (pre [(0, 0)] 1 100 99 [])) = some (.modZero, 0)
    ∧ raised (run (.mod 2 0 1) (pre [(0, -2147483648), (1, -1)] 1 100 99 [])) = some (.overflow, -2147483648) := by
  decide

theorem test_relations :
    (run (.eql 2 0 1) (pre [(0, 3), (1, 3)] 1 100 99 [])).rf.get 2 = some 1
    ∧ (run (.neq 4 0 3) (pre [(0, 3), (3, 0)] 1 100 99 [])).rf.get 4 = some 1
    ∧ (run (.lss 2 0 1) (pre [(0, -1), (1, 0)] 1 100 99 [])).rf.get 2 = some 1
    ∧ (run (.leq 2 0 1) (pre [(0, 5), (1, 5)] 1 100 99 [])).rf.get 2 = some 1
    ∧ (run (.gtr 2 0 1) (pre [(0, 0), (1, -1)] 1 100 99 [])).rf.get 2 = some 1
    ∧ (run (.geq 2 0 1) (pre [(0, 2), (1, 7)] 1 100 99 [])).rf.get 2 = some 0 := by decide

theorem test_relations_on_one_register :
    (run (.eql 2 0 0) (pre [(0, 3)] 1 100 99 [])).rf.get 2 = some 1
    ∧ (run (.neq 2 0 0) (pre [(0, 3)] 1 100 99 [])).rf.get 2 = some 0
    ∧ (run (.lss 2 0 0) (pre [(0, 3)] 1 100 99 [])).rf.get 2 = some 0
    ∧ (run (.leq 2 0 0) (pre [(0, 3)] 1 100 99 [])).rf.get 2 = some 1
    ∧ (run (.gtr 2 0 0) (pre [(0, 3)] 1 100 99 [])).rf.get 2 = some 0
    ∧ (run (.geq 2 0 0) (pre [(0, 3)] 1 100 99 [])).rf.get 2 = some 1 := by decide

/-- The record of a decode error (60_exceptions R160): kind 1, cause 1, info 99, PC not advanced. -/
theorem test_bad_opcode : (stepped (start [⟨99, 0, 0, 0⟩] [])).err = some ⟨.badOpcode, 0, some ⟨99, 0, 0, 0⟩, 99⟩
    ∧ Cause.badOpcode.kind.code = 1 ∧ Cause.badOpcode.code = 1 ∧ (stepped (start [⟨99, 0, 0, 0⟩] [])).pc = 0
    ∧ (stepped (start [⟨99, 0, 0, 0⟩] [])).halted = false := by decide

theorem test_fetch_past_end : (stepped (start [] [])).err = some ⟨.pcRange, 0, none, 0⟩ := by decide

/-- A table word placed for the next fetch runs as the first instruction after reset. -/
theorem test_withFetchWord :
    (stepped (State.reset.withFetchWord 128 (1 + 3 * 2 ^ 32 + 0xFFFFFFF9 * 2 ^ 96))).rf.get 3 = some (-7) := by decide

/-- The observation of the step of 95_test_vectors 1.1, index 0: the live stack is empty at SP = STACK_CAP. -/
theorem test_observation : (stepObservation (start [⟨1, 0, 0, 5⟩] [])).map (fun o => (o.insn, o.pc, o.live))
    = some (⟨1, 0, 0, 5⟩, 1, []) := by decide

/-! ## Witnesses: states and operands that meet the hypotheses of each statement, clause by clause -/

/-- A program with every kind of step: a halt, a read, a write of an empty register, and a bad opcode. -/
def image : List Quad := [⟨9, 0, 0, 3⟩, ⟨9, 6, 0, 2⟩, ⟨9, 0, 0, 1⟩, ⟨99, 0, 0, 0⟩, ⟨7, 0, 0, -1⟩]

/-- Running at an index of that program. -/
def runningAt (pc : Int) (answers : List Answer) : State := (start image answers).setPc pc

/-- Waiting in the read at index 1. -/
def waiting (answers : List Answer) : State := { runningAt 1 answers with ir := some ⟨9, 6, 0, 2⟩, run := .waitInput }

theorem witness_running_inv (pc : Int) (h : vector.wordBits.contains pc = true) (answers : List Answer) :
    (runningAt pc answers).Inv where
  params := by show vector.wf; decide
  progLen := by show image.length ≤ vector.codeCap; decide
  image := by show ∀ q ∈ image, q.WellFormed vector.wordBits; decide
  regs := by
    intro r v hr
    have : ∀ r : Reg, (runningAt pc answers).rf.get r = none := by
      show ∀ r : Reg, (Vector.replicate 7 (none : Option Int)).get r = none
      decide
    rw [this r] at hr
    cases hr
  filled := nofun
  canonical := by show Memory.wf vector.initial []; decide
  cells := nofun
  pcWord := h
  bpWord := by show vector.wordBits.contains ((vector.stackCap : Int) - 1) = true; decide
  spRange := by show (0 : Int) ≤ vector.stackCap ∧ (vector.stackCap : Int) ≤ vector.stackCap; decide
  errRun := ⟨nofun, nofun⟩
  waiting := nofun
  events := nofun

theorem witness_waiting_inv (answers : List Answer) : (waiting answers).Inv :=
  { witness_running_inv 1 (by decide) answers with
    errRun := ⟨nofun, nofun⟩
    waiting := fun _ => ⟨⟨9, 6, 0, 2⟩, 6, ⟨by show (0 : Int) ≤ 1; decide, rfl⟩, rfl, by decide⟩ }

theorem witness_ResetStartsRunningWithHaltFlagFalse : (runningAt 0 []).halt.run = .halted := by decide

theorem witness_ResetGivesEveryElementItsResetValue :
    (∃ s, s = State.resetWith vector image [] ∧ vector.initContent = .empty)
    ∧ ∃ s, s = State.resetWith Params.default image [] ∧ Params.default.initContent = .zero := by
  exact ⟨⟨_, rfl, rfl⟩, ⟨_, rfl, rfl⟩⟩

/-- Parameters at both ends of their ranges, and a program of CODE_CAP quadruples with the extreme words. -/
theorem witness_ResetMeetsInvariant :
    narrow.wf ∧ ({ narrow with stackCap := 1, codeCap := 1 } : Params).wf
    ∧ ({ narrow with wordBits := .unbounded } : Params).wf
    ∧ [(⟨127, -128, 127, -128⟩ : Quad)].length ≤ 1
    ∧ ∀ q ∈ [(⟨127, -128, 127, -128⟩ : Quad)], q.WellFormed narrow.wordBits := by decide

/-- From Running into Halted, WaitInput and Faulted, and from WaitInput. -/
theorem witness_StepKeepsInvariant :
    ((runningAt 0 []).Inv ∧ step (runningAt 0 []) = .next (stepped (runningAt 0 [])))
    ∧ ((runningAt 1 []).Inv ∧ step (runningAt 1 []) = .next (stepped (runningAt 1 [])))
    ∧ ((runningAt 3 []).Inv ∧ step (runningAt 3 []) = .next (stepped (runningAt 3 [])))
    ∧ ((runningAt 5 []).Inv ∧ step (runningAt 5 []) = .next (stepped (runningAt 5 [])))
    ∧ ((waiting [.value 3]).Inv ∧ step (waiting [.value 3]) = .next (stepped (waiting [.value 3]))) :=
  ⟨⟨witness_running_inv 0 (by decide) [], step_stepped (by decide)⟩,
    ⟨witness_running_inv 1 (by decide) [], step_stepped (by decide)⟩,
    ⟨witness_running_inv 3 (by decide) [], step_stepped (by decide)⟩,
    ⟨witness_running_inv 5 (by decide) [], step_stepped (by decide)⟩,
    ⟨witness_waiting_inv _, step_stepped (by decide)⟩⟩

/-- SP at both ends of its range. -/
theorem witness_StepKeepsStackPointerInRange :
    (0 ≤ ((runningAt 0 []).setSp 0).sp ∧ steps ((runningAt 0 []).setSp 0) = true)
    ∧ ((runningAt 0 []).sp ≤ (runningAt 0 []).params.stackCap ∧ steps (runningAt 0 []) = true) := by decide

/-- An accepted launch and the three kinds of refused one. -/
theorem witness_LaunchAdmitsExactlyFittingPrograms :
    (launch narrow [⟨2, 0, 0, 0⟩] []).isSome = true
    ∧ launch { narrow with stackCap := 0 } [] [] = none ∧ launch { narrow with codeCap := 0 } [⟨2, 0, 0, 0⟩] [] = none
    ∧ launch narrow [⟨2, 0, 0, 128⟩] [] = none := by decide

theorem witness_DecodeOfEncodedTableWord :
    Instr.wellFormed (.bounded 32) (.lit 6 (-2147483648)) = true
    ∧ Instr.wellFormed (.bounded 32) (.lod 0 2147483647 2147483647) = true := by decide

theorem witness_EncodingOfWellFormedInstructionFitsWords :
    (WordBits.bounded 8).admitted = true ∧ WordBits.unbounded.admitted = true
    ∧ Instr.wellFormed (.bounded 8) (.lod 6 127 (-128)) = true ∧ Instr.wellFormed .unbounded (.jmp (-129)) = true := by
  decide

theorem witness_DecodedInstructionIsWellFormed :
    Quad.WellFormed (.bounded 8) ⟨3, 6, 127, -128⟩ ∧ decode ⟨3, 6, 127, -128⟩ = .ok (.lod 6 127 (-128)) := by decide

/-- One quadruple for each of the checks, at the edge of its range (values 0, 4, -1, 7). -/
theorem witness_DecodeChecksInOrder :
    (∀ q ∈ [(⟨9, 9, 0, 0⟩ : Quad), ⟨9, 0, 0, 4⟩], q.opcode = 9 ∧ q.m ≠ 1 ∧ q.m ≠ 2 ∧ q.m ≠ 3)
    ∧ (∀ q ∈ [(⟨1, -1, 0, 0⟩ : Quad), ⟨22, 7, 0, 0⟩],
        q.opcode ∈ ([1, 3, 4, 8, 10, 11, 12, 13, 14, 15, 16, 17, 18, 19, 20, 21, 22] : List Int) ∧ ¬ (0 ≤ q.r ∧ q.r ≤ 6))
    ∧ (∀ q ∈ [(⟨9, 7, 0, 1⟩ : Quad), ⟨9, -1, 0, 2⟩], q.opcode = 9 ∧ (q.m = 1 ∨ q.m = 2) ∧ ¬ (0 ≤ q.r ∧ q.r ≤ 6))
    ∧ (∀ q ∈ [(⟨11, 0, 7, 0⟩ : Quad), ⟨22, 6, -1, 9⟩],
        q.opcode ∈ ([11, 12, 13, 14, 16, 17, 18, 19, 20, 21, 22] : List Int) ∧ 0 ≤ q.r ∧ q.r ≤ 6 ∧ ¬ (0 ≤ q.l ∧ q.l ≤ 6))
    ∧ (∀ q ∈ [(⟨11, 0, 6, 7⟩ : Quad), ⟨22, 6, 0, -1⟩],
        q.opcode ∈ ([11, 12, 13, 14, 16, 17, 18, 19, 20, 21, 22] : List Int) ∧ 0 ≤ q.r ∧ q.r ≤ 6 ∧ 0 ≤ q.l ∧ q.l ≤ 6
          ∧ ¬ (0 ≤ q.m ∧ q.m ≤ 6))
    ∧ (∀ q ∈ [(⟨3, 0, -1, 0⟩ : Quad), ⟨4, 6, -1, 0⟩],
        q.opcode ∈ ([3, 4] : List Int) ∧ 0 ≤ q.r ∧ q.r ≤ 6 ∧ q.l < 0)
    ∧ ((⟨5, 9, -1, 0⟩ : Quad).opcode = 5 ∧ (⟨5, 9, -1, 0⟩ : Quad).l < 0) := by decide

/-- At index 0 and at the last index. -/
theorem witness_StepRunsTheDecodedInstruction :
    ((runningAt 0 []).run = .running ∧ (runningAt 0 []).fetches ⟨9, 0, 0, 3⟩ ∧ decode ⟨9, 0, 0, 3⟩ = .ok .sysHalt)
    ∧ ((runningAt 4 []).run = .running ∧ (runningAt 4 []).fetches ⟨7, 0, 0, -1⟩
      ∧ decode ⟨7, 0, 0, -1⟩ = .ok (.jmp (-1))) := by decide

/-- Just below the program and just past it. -/
theorem witness_FetchOutsideTheProgramFaults :
    ((runningAt (-1) []).run = .running ∧ (runningAt (-1) []).pc < 0)
    ∧ ((runningAt 5 []).run = .running ∧ ((runningAt 5 []).imem.length : Int) ≤ (runningAt 5 []).pc) := by decide

/-- The opcodes 0 and 23. -/
theorem witness_BadOpcodeIsFatalDecodeError :
    ((start [⟨0, 0, 0, 0⟩] []).run = .running ∧ (start [⟨0, 0, 0, 0⟩] []).fetches ⟨0, 0, 0, 0⟩)
    ∧ ((start [⟨23, 0, 0, 0⟩] []).run = .running ∧ (start [⟨23, 0, 0, 0⟩] []).fetches ⟨23, 0, 0, 0⟩
      ∧ (22 : Int) < (⟨23, 0, 0, 0⟩ : Quad).opcode) := by decide

theorem witness_DecodeErrorAbortsTheStep :
    (start [⟨3, 6, -1, 0⟩] []).run = .running ∧ (start [⟨3, 6, -1, 0⟩] []).fetches ⟨3, 6, -1, 0⟩
    ∧ decode ⟨3, 6, -1, 0⟩ = .error ⟨.negLevel, -1⟩ := by decide

/-- A step that faults at decode, one that faults at fetch, one that faults at execute, one that does not fault. -/
theorem witness_FaultIsPrecise :
    ((runningAt 3 []).Inv ∧ step (runningAt 3 []) = .next (stepped (runningAt 3 []))
      ∧ (stepped (runningAt 3 [])).run = .faulted ∧ raised (stepped (runningAt 3 [])) = some (.badOpcode, 99))
    ∧ ((runningAt 5 []).Inv ∧ step (runningAt 5 []) = .next (stepped (runningAt 5 []))
      ∧ (stepped (runningAt 5 [])).run = .faulted ∧ raised (stepped (runningAt 5 [])) = some (.pcRange, 5))
    ∧ ((runningAt 2 []).Inv ∧ step (runningAt 2 []) = .next (stepped (runningAt 2 []))
      ∧ (stepped (runningAt 2 [])).run = .faulted ∧ raised (stepped (runningAt 2 [])) = some (.regUnwritten, 0))
    ∧ ((runningAt 0 []).Inv ∧ step (runningAt 0 []) = .next (stepped (runningAt 0 []))
      ∧ (stepped (runningAt 0 [])).run ≠ .faulted) :=
  ⟨⟨witness_running_inv 3 (by decide) [], step_stepped (by decide), by decide, by decide⟩,
    ⟨witness_running_inv 5 (by decide) [], step_stepped (by decide), by decide, by decide⟩,
    ⟨witness_running_inv 2 (by decide) [], step_stepped (by decide), by decide, by decide⟩,
    ⟨witness_running_inv 0 (by decide) [], step_stepped (by decide), by decide⟩⟩

theorem witness_DecodeErrorComesFromDecodeAlone :
    (∃ e, (runningAt 3 []).run = .running ∧ step (runningAt 3 []) = .next (stepped (runningAt 3 []))
      ∧ (stepped (runningAt 3 [])).run = .faulted ∧ (stepped (runningAt 3 [])).err = some e ∧ e.kind = .decodeError)
    ∧ ∃ e, (pre [] 1 100 99 []).run = .running
      ∧ exec (.neg 0) (pre [] 1 100 99 []) = .next (run (.neg 0) (pre [] 1 100 99 []))
      ∧ (run (.neg 0) (pre [] 1 100 99 [])).run = .faulted ∧ (run (.neg 0) (pre [] 1 100 99 [])).err = some e :=
  ⟨⟨⟨.badOpcode, 3, some ⟨99, 0, 0, 0⟩, 99⟩, rfl, step_stepped (by decide), by decide, by decide, by decide⟩,
    ⟨⟨.regUnwritten, 0, none, 0⟩, rfl, exec_run _ _, by decide, by decide⟩⟩

/-- One register written in a state of the invariant. -/
theorem witness_register_inv (r : Reg) (v : Int) (h : vector.wordBits.contains v = true) :
    ((runningAt 1 []).writeReg r v).Inv := (witness_running_inv 1 (by decide) []).writeReg r h

/-- One instruction for each cause and kind of the statement, each faulting from a state of the invariant. -/
theorem witness_ErrorKindsComeFromTheirInstructions :
    (∀ answers, (runningAt 1 answers).Inv) ∧ (∀ v, vector.wordBits.contains v = true → ((runningAt 1 []).writeReg 0 v).Inv)
    ∧ raised (run (.div 0 0 0) ((runningAt 1 []).writeReg 0 0)) = some (.divZero, 0)
    ∧ raised (run (.mod 0 0 0) ((runningAt 1 []).writeReg 0 0)) = some (.modZero, 0)
    ∧ raised (run (.add 0 0 0) ((runningAt 1 []).writeReg 0 2147483647)) = some (.overflow, 4294967294)
    ∧ raised (run (.inc 101) (runningAt 1 [])) = some (.spRange, -1)
    ∧ raised (run (.sysRead 0) (runningAt 1 [.unavailable])) = some (.inputUnavailable, 0)
    ∧ raised (run (.lod 0 0 3) (runningAt 1 [])) = some (.cellUnwritten, 96) :=
  ⟨witness_running_inv 1 (by decide), witness_register_inv 0, by decide, by decide, by decide, by decide, by decide,
    by decide⟩

theorem witness_NoStepAfterHaltOrFault :
    (stepped (runningAt 0 [])).run = .halted ∧ (stepped (runningAt 3 [])).run = .faulted := by decide

/-- The step that sets the flag, a step that faults, a step that does neither, and a halted state. -/
theorem witness_OnlySysHaltSetsTheHaltFlag :
    (steps (runningAt 0 []) = true ∧ (stepped (runningAt 0 [])).halted = true)
    ∧ (steps (runningAt 3 []) = true ∧ (stepped (runningAt 3 [])).run = .faulted)
    ∧ (steps (runningAt 4 []) = true ∧ (runningAt 4 []).run = .running ∧ (stepped (runningAt 4 [])).halted = false)
    ∧ (runningAt 0 []).halt.halted = true := by decide

theorem witness_RunningEngineAlwaysSteps :
    (runningAt 1 []).run = .running ∧ (stepped (runningAt 1 [])).run = .waitInput
    ∧ (stepped (runningAt 4 [])).run = .running := by decide

theorem witness_SysReadWaitsHoldsAndResumes :
    decode ⟨9, 6, 0, 2⟩ = .ok (.sysRead 6)
    ∧ ((runningAt 1 []).fetches ⟨9, 6, 0, 2⟩ ∧ (runningAt 1 []).run = .running ∧ (runningAt 1 []).answers = [])
    ∧ ((waiting []).fetches ⟨9, 6, 0, 2⟩ ∧ (waiting []).run = .waitInput ∧ (waiting []).answers = [])
    ∧ ((waiting [.value 3]).fetches ⟨9, 6, 0, 2⟩ ∧ (waiting [.value 3]).run = .waitInput
      ∧ (waiting [.value 3]).ir = some ⟨9, 6, 0, 2⟩ ∧ (waiting [.value 3]).answers = [.value 3]) := by decide

/-- A step that ends Running, one that ends Halted, a waiting read that commits, one that faults, one that waits, and
stopped engines. -/
theorem witness_ObservationOfEveryCommittedStep :
    ((runningAt 4 []).run = .running ∧ (runningAt 4 []).fetches ⟨7, 0, 0, -1⟩ ∧ steps (runningAt 4 []) = true
      ∧ (stepped (runningAt 4 [])).run = .running)
    ∧ ((runningAt 0 []).run = .running ∧ (runningAt 0 []).fetches ⟨9, 0, 0, 3⟩ ∧ steps (runningAt 0 []) = true
      ∧ (stepped (runningAt 0 [])).run = .halted)
    ∧ ((waiting [.value 3]).run = .waitInput ∧ (waiting [.value 3]).ir = some ⟨9, 6, 0, 2⟩
      ∧ steps (waiting [.value 3]) = true ∧ (stepped (waiting [.value 3])).run = .running)
    ∧ (steps (runningAt 3 []) = true ∧ (stepped (runningAt 3 [])).run = .faulted)
    ∧ (steps (runningAt 1 []) = true ∧ (stepped (runningAt 1 [])).run = .waitInput)
    ∧ (runningAt 0 []).halt.run = .halted ∧ (stepped (runningAt 3 [])).run = .faulted := by decide

/-- Running and waiting, with another image that agrees at PC alone. -/
theorem witness_ProgramIsOnlyFetched :
    ((runningAt 4 []).run = .running ∧ (runningAt 4 []).fetches ⟨7, 0, 0, -1⟩ ∧ steps (runningAt 4 []) = true
      ∧ ([⟨0, 0, 0, 0⟩, ⟨0, 0, 0, 0⟩, ⟨0, 0, 0, 0⟩, ⟨0, 0, 0, 0⟩, ⟨7, 0, 0, -1⟩, ⟨2, 0, 0, 0⟩] : List Quad)[(4 : Int).toNat]?
        = some ⟨7, 0, 0, -1⟩)
    ∧ ((waiting [.value 3]).run = .waitInput ∧ steps (waiting [.value 3]) = true) := by decide

/-- A step that is no read, a read that finds an answer, and a waiting read that gets one. -/
theorem witness_NextStateDependsOnAtMostOneAnswer :
    ((runningAt 0 []).run = .running ∧ (∀ q r, (runningAt 0 []).fetches q → decode q ≠ .ok (.sysRead r))
      ∧ steps (runningAt 0 []) = true)
    ∧ ((runningAt 1 [.value 3]).run = .running ∧ (runningAt 1 [.value 3]).fetches ⟨9, 6, 0, 2⟩
      ∧ decode ⟨9, 6, 0, 2⟩ = .ok (.sysRead 6) ∧ (runningAt 1 [.value 3]).answers = [.value 3]
      ∧ steps (runningAt 1 [.value 3]) = true)
    ∧ ((waiting [.unavailable]).run = .waitInput ∧ (waiting [.unavailable]).answers = [.unavailable]
      ∧ steps (waiting [.unavailable]) = true) := by
  refine ⟨⟨rfl, ?_, by decide⟩, by decide, by decide⟩
  intro q r h
  rw [fetches_unique h (show (runningAt 0 []).fetches ⟨9, 0, 0, 3⟩ by decide)]
  exact fun hd => nomatch hd

theorem witness_OutputLogOnlyGrowsBySysWrite :
    steps ((runningAt 2 []).writeReg 0 7) = true ∧ (stepped ((runningAt 2 []).writeReg 0 7)).out = [⟨0, 7⟩] := by decide

/-- An instruction of each group of the statement. -/
theorem witness_PointerRegistersTouchedOnlyByTheirInstructions :
    exec .rtn (pre [] 5 92 95 [(94, 99), (93, 11)]) = .next (run .rtn (pre [] 5 92 95 [(94, 99), (93, 11)]))
    ∧ (run .rtn (pre [] 5 92 95 [(94, 99), (93, 11)])).run ≠ .faulted
    ∧ exec (.lit 0 1) (pre [] 1 100 99 []) = .next (run (.lit 0 1) (pre [] 1 100 99 []))
    ∧ exec (.cal 0 1) (pre [] 11 96 99 []) = .next (run (.cal 0 1) (pre [] 11 96 99 []))
    ∧ exec (.inc 4) (pre [] 11 96 99 []) = .next (run (.inc 4) (pre [] 11 96 99 [])) :=
  ⟨exec_run _ _, by decide, exec_run _ _, exec_run _ _, exec_run _ _⟩

theorem witness_StackMemoryTouchedOnlyByItsInstructions :
    Instr.lit 0 1 ≠ .rtn ∧ (∀ l m, Instr.lit 0 1 ≠ .cal l m) ∧ (∀ r l m, Instr.lit 0 1 ≠ .lod r l m)
    ∧ (∀ r l m, Instr.lit 0 1 ≠ .sto r l m)
    ∧ exec (.lit 0 1) (pre [] 1 100 99 []) = .next (run (.lit 0 1) (pre [] 1 100 99 [])) :=
  ⟨nofun, nofun, nofun, nofun, exec_run _ _⟩

theorem witness_WrittenNeverBecomesEmpty :
    steps ((runningAt 0 []).writeReg 3 7) = true ∧ (((runningAt 0 []).writeReg 3 7).rf.get 3).isSome = true
    ∧ steps ((runningAt 0 []).writeCell 99 7) = true ∧ (((runningAt 0 []).writeCell 99 7).cell 99).isSome = true := by
  decide

/-- Under ZERO a step that faults; the invariant of the ZERO state field by field. -/
theorem witness_NoUnwrittenReadErrorUnderZero :
    State.Inv { (runningAt 5 []) with params := Params.default, rf := Vector.replicate 7 (some 0) }
    ∧ step { (runningAt 5 []) with params := Params.default, rf := Vector.replicate 7 (some 0) }
      = .next (stepped { (runningAt 5 []) with params := Params.default, rf := Vector.replicate 7 (some 0) })
    ∧ (stepped { (runningAt 5 []) with params := Params.default, rf := Vector.replicate 7 (some 0) }).err
      = some ⟨.pcRange, 5, none, 5⟩
    ∧ Params.default.initContent = .zero ∧ (runningAt 5 []).run ≠ .faulted := by
  refine ⟨?_, step_stepped (by decide), by decide, rfl, nofun⟩
  have h0 : ∀ r : Reg, (Vector.replicate 7 (some (0 : Int))).get r = some 0 := by decide
  exact
    { witness_running_inv 5 (by decide) [] with
      regs := by
        intro r v hr
        have hr : (Vector.replicate 7 (some (0 : Int))).get r = some v := hr
        rw [h0 r] at hr
        cases hr
        show Params.default.wordBits.contains 0 = true
        decide
      filled := by
        intro _ r
        show ((Vector.replicate 7 (some (0 : Int))).get r).isSome = true
        rw [h0 r]
        rfl
      canonical := by show Memory.wf Params.default.initial []; decide
      params := by show Params.default.wf; decide }

/-- Both kinds of failing hop, at the first hop and after one. -/
theorem witness_ResolverRaisesAtTheFirstFailingHop :
    (pre [] 1 100 (-5) []).resolve 1 (-5) = .error ⟨.resolveRange, -5⟩
    ∧ (pre [] 1 100 95 [(95, 100)]).resolve 2 95 = .error ⟨.resolveRange, 100⟩
    ∧ (pre [] 1 100 95 [(95, 99)]).resolve 2 95 = .error ⟨.cellUnwritten, 99⟩ := by decide

/-- A chain of no hop from outside the array, and a chain of two (95_test_vectors 1.6: 91, 95, 99). -/
theorem witness_ResolverWalksTheStaticLinkChain :
    (pre [] 1 100 (-5) []).resolve 0 (-5) = .ok (-5)
    ∧ (pre [] 1 92 91 [(91, 95), (95, 99)]).resolve 2 91 = .ok 99 := by decide

/-- A call of level 0 and one of level 1. -/
theorem witness_CallLinksTheEnclosingFrame :
    (exec (.cal 0 1) (pre [] 11 96 99 []) = .next (run (.cal 0 1) (pre [] 11 96 99 []))
      ∧ (run (.cal 0 1) (pre [] 11 96 99 [])).run ≠ .faulted)
    ∧ (exec (.cal 1 1) (pre [] 11 3 95 [(95, 99)]) = .next (run (.cal 1 1) (pre [] 11 3 95 [(95, 99)]))
      ∧ (run (.cal 1 1) (pre [] 11 3 95 [(95, 99)])).run ≠ .faulted) :=
  ⟨⟨exec_run _ _, by decide⟩, ⟨exec_run _ _, by decide⟩⟩

theorem witness_LitLoadsItsImmediate :
    (((6 : Reg).val : Int) = 6 ∧ ¬ ((0 : Int) ≤ -1 ∧ (-1 : Int) ≤ 6) ∧ ¬ ((0 : Int) ≤ 7 ∧ (7 : Int) ≤ 6))
    ∧ (start [⟨1, 6, 0, -7⟩] []).run = .running
    ∧ (start [⟨1, 6, 0, -7⟩] []).fetches ⟨1, ((6 : Reg).val : Int), 0, -7⟩ := by decide

/-- A failing walk; an address just outside the array on each side; an empty cell; the lowest and highest cell. -/
theorem witness_LodLoadsTheResolvedCell :
    (pre [] 1 100 (-5) []).resolve 1 (-5) = .error ⟨.resolveRange, -5⟩
    ∧ (pre [] 1 100 99 []).resolve 0 99 = .ok 99
    ∧ ¬ (pre [] 1 100 99 []).inArray (99 - 100) ∧ ¬ (pre [] 1 100 99 []).inArray (99 - (-1))
    ∧ ((pre [] 1 100 99 []).inArray (99 - 3) ∧ (pre [] 1 100 99 []).cell 96 = none)
    ∧ ((pre [] 1 100 99 [(0, 4)]).inArray (99 - 99) ∧ (pre [] 1 100 99 [(0, 4)]).cell 0 = some 4)
    ∧ ((pre [] 1 100 99 [(99, 4)]).inArray (99 - 0) ∧ (pre [] 1 100 99 [(99, 4)]).cell 99 = some 4) := by decide

theorem witness_StoStoresToTheResolvedCell :
    (pre [] 1 100 (-5) []).resolve 1 (-5) = .error ⟨.resolveRange, -5⟩
    ∧ ((pre [] 1 100 99 []).resolve 0 99 = .ok 99 ∧ (pre [] 1 100 99 []).rf.get 2 = none)
    ∧ ¬ (pre [] 1 100 99 []).inArray (99 - 100) ∧ ¬ (pre [] 1 100 99 []).inArray (99 - (-1))
    ∧ ((pre [(2, 5)] 1 100 99 []).inArray (99 - 99) ∧ (pre [(2, 5)] 1 100 99 []).rf.get 2 = some 5)
    ∧ (pre [(2, 5)] 1 100 99 []).inArray (99 - 0) := by decide

/-- A store with an effective address, one whose walk fails, and one that faults at an address below the array. -/
theorem witness_StoFrame :
    (exec (.sto 0 0 3) (pre [(0, 5)] 1 100 99 []) = .next (run (.sto 0 0 3) (pre [(0, 5)] 1 100 99 []))
      ∧ (pre [(0, 5)] 1 100 99 []).effectiveAddress 0 3 = .ok 96)
    ∧ (exec (.sto 0 1 3) (pre [(0, 5)] 1 100 99 []) = .next (run (.sto 0 1 3) (pre [(0, 5)] 1 100 99 []))
      ∧ (pre [(0, 5)] 1 100 99 []).effectiveAddress 1 3 = .error ⟨.cellUnwritten, 99⟩)
    ∧ (exec (.sto 0 0 100) (pre [(0, 5)] 1 100 99 []) = .next (run (.sto 0 0 100) (pre [(0, 5)] 1 100 99 []))
      ∧ (pre [(0, 5)] 1 100 99 []).effectiveAddress 0 100 = .ok (-1) ∧ (pre [(0, 5)] 1 100 99 []).run ≠ .faulted
      ∧ (run (.sto 0 0 100) (pre [(0, 5)] 1 100 99 [])).run = .faulted) :=
  ⟨⟨exec_run _ _, by decide⟩, ⟨exec_run _ _, by decide⟩, exec_run _ _, by decide, by decide, by decide⟩

/-- A store at level 1 that a load at level 0 with a negative offset reads back, and one frame's own variable. -/
theorem witness_LoadAfterStoreGivesTheWordStored :
    ((pre [(0, 5)] 1 92 95 [(95, 99)]).run = .running
      ∧ exec (.sto 0 1 3) (pre [(0, 5)] 1 92 95 [(95, 99)]) = .next (run (.sto 0 1 3) (pre [(0, 5)] 1 92 95 [(95, 99)]))
      ∧ (run (.sto 0 1 3) (pre [(0, 5)] 1 92 95 [(95, 99)])).run = .running
      ∧ (pre [(0, 5)] 1 92 95 [(95, 99)]).effectiveAddress 1 3 = .ok 96
      ∧ (run (.sto 0 1 3) (pre [(0, 5)] 1 92 95 [(95, 99)])).effectiveAddress 0 (-1) = .ok 96)
    ∧ ((pre [(0, 5)] 1 100 99 []).run = .running
      ∧ exec (.sto 0 0 3) (pre [(0, 5)] 1 100 99 []) = .next (run (.sto 0 0 3) (pre [(0, 5)] 1 100 99 []))
      ∧ (run (.sto 0 0 3) (pre [(0, 5)] 1 100 99 [])).run = .running) :=
  ⟨⟨by decide, exec_run _ _, by decide, by decide, by decide⟩, by decide, exec_run _ _, by decide⟩

/-- BP + 1 at and past both ends of its range; each link outside the array, empty, and present. -/
theorem witness_RtnRestoresTheCaller :
    (¬ (0 ≤ (pre [] 1 100 (-2) []).bp + 1 ∧ (pre [] 1 100 (-2) []).bp + 1 ≤ 100))
    ∧ (¬ (0 ≤ (pre [] 1 100 100 []).bp + 1 ∧ (pre [] 1 100 100 []).bp + 1 ≤ 100))
    ∧ (0 ≤ (pre [] 1 100 0 []).bp + 1 ∧ ¬ (pre [] 1 100 0 []).inArray (0 - 1))
    ∧ (0 ≤ (pre [] 1 100 1 [(0, 7)]).bp + 1 ∧ (pre [] 1 100 1 [(0, 7)]).inArray (1 - 1)
      ∧ (pre [] 1 100 1 [(0, 7)]).cell 0 = some 7 ∧ ¬ (pre [] 1 100 1 [(0, 7)]).inArray (1 - 2))
    ∧ ((pre [] 1 100 99 []).bp + 1 ≤ 100 ∧ (pre [] 1 100 99 []).inArray (99 - 1)
      ∧ (pre [] 1 100 99 []).cell 98 = none)
    ∧ ((pre [] 1 100 99 [(98, 7)]).inArray (99 - 2) ∧ (pre [] 1 100 99 [(98, 7)]).cell 98 = some 7
      ∧ (pre [] 1 100 99 [(98, 7)]).cell 97 = none)
    ∧ ((pre [] 1 100 99 [(98, 7), (97, 8)]).cell 98 = some 7 ∧ (pre [] 1 100 99 [(98, 7), (97, 8)]).cell 97 = some 8) := by
  decide

/-- SP at 0, 1, 2, 3 and at STACK_CAP, and a failing walk. -/
theorem witness_CalBuildsTheFrame :
    (∀ sp ∈ ([0, 1, 2, 3, 100] : List Int), (pre [] 11 sp 99 []).resolve 0 99 = .ok 99
      ∧ (pre [] 11 sp 99 []).sp ≤ (pre [] 11 sp 99 []).params.stackCap ∧ (pre [] 11 sp 99 []).sp = sp)
    ∧ (pre [] 11 96 99 []).resolve 1 99 = .error ⟨.cellUnwritten, 99⟩ := by decide

theorem witness_CalFrame :
    (exec (.cal 0 1) (pre [] 11 3 99 []) = .next (run (.cal 0 1) (pre [] 11 3 99 []))
      ∧ (run (.cal 0 1) (pre [] 11 3 99 [])).run ≠ .faulted)
    ∧ (exec (.cal 0 1) (pre [] 11 2 99 []) = .next (run (.cal 0 1) (pre [] 11 2 99 []))
      ∧ (run (.cal 0 1) (pre [] 11 2 99 [])).run = .faulted) :=
  ⟨⟨exec_run _ _, by decide⟩, ⟨exec_run _ _, by decide⟩⟩

/-- The new SP at both ends of its range and just past them. -/
theorem witness_IncMovesTheStackPointer :
    (0 ≤ (pre [] 1 96 99 []).sp - 96 ∧ (pre [] 1 96 99 []).sp - 96 ≤ (pre [] 1 96 99 []).params.stackCap)
    ∧ (0 ≤ (pre [] 1 96 99 []).sp - (-4) ∧ (pre [] 1 96 99 []).sp - (-4) ≤ (pre [] 1 96 99 []).params.stackCap)
    ∧ ¬ (0 ≤ (pre [] 1 96 99 []).sp - 97)
    ∧ ¬ ((pre [] 1 96 99 []).sp - (-5) ≤ (pre [] 1 96 99 []).params.stackCap) := by decide

/-- The callee has moved SP and written a register and a local; BP and the links are as the CAL left them. -/
theorem witness_ReturnUndoesTheCall :
    exec (.cal 0 1) (pre [] 11 96 99 []) = .next (run (.cal 0 1) (pre [] 11 96 99 []))
    ∧ (run (.cal 0 1) (pre [] 11 96 99 [])).run ≠ .faulted
    ∧ (pre [] 11 96 99 []).sp ≤ (pre [] 11 96 99 []).params.stackCap
    ∧ (pre [(0, 1)] 20 90 95 [(95, 99), (94, 99), (93, 11), (92, 6)]).params
      = (run (.cal 0 1) (pre [] 11 96 99 [])).params
    ∧ (pre [(0, 1)] 20 90 95 [(95, 99), (94, 99), (93, 11), (92, 6)]).bp = (run (.cal 0 1) (pre [] 11 96 99 [])).bp
    ∧ (pre [(0, 1)] 20 90 95 [(95, 99), (94, 99), (93, 11), (92, 6)]).cell 94
      = (run (.cal 0 1) (pre [] 11 96 99 [])).cell 94
    ∧ (pre [(0, 1)] 20 90 95 [(95, 99), (94, 99), (93, 11), (92, 6)]).cell 93
      = (run (.cal 0 1) (pre [] 11 96 99 [])).cell 93 :=
  ⟨exec_run _ _, by decide, by decide, by decide, by decide, by decide, by decide⟩

/-- A target in the program, targets just outside it, and a jump to itself. -/
theorem witness_JmpTakesItsTarget :
    ((runningAt 4 []).run = .running ∧ exec (.jmp 4) (runningAt 4 []) = .next (run (.jmp 4) (runningAt 4 []))
      ∧ ((0 : Int) ≤ 4 ∧ (runningAt 4 []).imem[(4 : Int).toNat]? = some ⟨7, 0, 0, -1⟩)
      ∧ decode ⟨7, 0, 0, -1⟩ = .ok (.jmp (-1)))
    ∧ (-1 : Int) < 0 ∧ ((runningAt 4 []).imem.length : Int) ≤ 5
    ∧ (start [⟨7, 0, 0, 0⟩] []).run = .running
    ∧ (start [⟨7, 0, 0, 0⟩] []).fetches ⟨7, 0, 0, (start [⟨7, 0, 0, 0⟩] []).pc⟩ :=
  ⟨⟨by decide, exec_run _ _, by decide, by decide⟩, by decide, by decide, by decide, by decide⟩

/-- A register field in range and one on each side of it; a zero, a negative word, an empty register; a jump out. -/
theorem witness_JpcJumpsExactlyOnZero :
    (((4 : Reg).val : Int) = 4 ∧ ¬ ((0 : Int) ≤ 7 ∧ (7 : Int) ≤ 6) ∧ ¬ ((0 : Int) ≤ -1 ∧ (-1 : Int) ≤ 6))
    ∧ (pre [(4, 0)] 6 100 99 []).rf.get 4 = some 0
    ∧ ((pre [(4, -1)] 6 100 99 []).rf.get 4 = some (-1) ∧ (-1 : Int) ≠ 0)
    ∧ (pre [] 6 100 99 []).rf.get 4 = none
    ∧ ((pre [(4, 0)] 6 100 99 []).run = .running ∧ ((pre [(4, 0)] 6 100 99 []).imem.length : Int) ≤ 0
      ∧ exec (.jpc 4 0) (pre [(4, 0)] 6 100 99 []) = .next (run (.jpc 4 0) (pre [(4, 0)] 6 100 99 []))) :=
  ⟨by decide, by decide, by decide, by decide, by decide, by decide, exec_run _ _⟩

/-- Each of the three transfers to a literal, RTN, and the fetch that follows. -/
theorem witness_TransfersWriteTheirLiteralTarget :
    (exec (.jpc 4 9) (pre [(4, 0)] 6 100 99 []) = .next (run (.jpc 4 9) (pre [(4, 0)] 6 100 99 []))
      ∧ (run (.jpc 4 9) (pre [(4, 0)] 6 100 99 [])).run = .running ∧ (pre [(4, 0)] 6 100 99 []).rf.get 4 = some 0
      ∧ (run (.jpc 4 9) (pre [(4, 0)] 6 100 99 [])).pc ≠ (pre [(4, 0)] 6 100 99 []).pc)
    ∧ (run (.cal 0 1) (pre [] 11 96 99 [])).run = .running ∧ (run (.jmp 7) (pre [] 1 100 99 [])).run = .running
    ∧ (run .rtn (pre [] 5 92 95 [(94, 99), (93, 11)])).run = .running
    ∧ ((runningAt 4 []).run = .running ∧ (runningAt 4 []).fetches ⟨7, 0, 0, -1⟩) :=
  ⟨⟨exec_run _ _, by decide, by decide, by decide⟩, by decide, by decide, by decide, by decide⟩

theorem witness_SysWriteEmitsItsRegister :
    (((0 : Reg).val : Int) = 0 ∧ ¬ ((0 : Int) ≤ 7 ∧ (7 : Int) ≤ 6) ∧ ¬ ((0 : Int) ≤ -1 ∧ (-1 : Int) ≤ 6))
    ∧ (pre [(2, 8)] 1 100 99 []).rf.get 2 = some 8 ∧ (pre [(2, 8)] 1 100 99 []).rf.get 3 = none
    ∧ (steps (runningAt 2 []) = true ∧ (stepped (runningAt 2 [])).run = .faulted) := by decide

/-- No answer; the smallest and largest word; just past each; and Unavailable. -/
theorem witness_SysReadTakesOneAnswer :
    (start [] []).answers = []
    ∧ ((start [] [.value (-2147483648)]).answers = [.value (-2147483648)] ∧ (start [] []).isWord (-2147483648))
    ∧ (start [] []).isWord 2147483647 ∧ ¬ (start [] []).isWord 2147483648 ∧ ¬ (start [] []).isWord (-2147483649)
    ∧ (start [] [.unavailable, .value 1]).answers = .unavailable :: [.value 1] := by decide

theorem witness_SysHaltStopsTheEngine :
    (runningAt 0 []).run = .running ∧ (runningAt 0 []).fetches ⟨9, 0, 0, 3⟩ ∧ decode ⟨9, 0, 0, 3⟩ = .ok .sysHalt := by
  decide

/-- Results at both ends of the word range and just past them. -/
theorem witness_NegAddSubMulAreExact :
    ((pre [(1, -2147483647)] 1 100 99 []).rf.get 1 = some (-2147483647) ∧ (pre [] 1 100 99 []).isWord (-(-2147483647)))
    ∧ ((pre [(1, -2147483648)] 1 100 99 []).rf.get 1 = some (-2147483648)
      ∧ ¬ (pre [] 1 100 99 []).isWord (-(-2147483648)))
    ∧ ((pre [(0, 2147483646), (1, 1)] 1 100 99 []).rf.get 0 = some 2147483646
      ∧ (pre [(0, 2147483646), (1, 1)] 1 100 99 []).rf.get 1 = some 1)
    ∧ ((Instr.add 2 0 1, (2147483646 : Int) + 1) ∈ [(Instr.add 2 0 1, (2147483646 : Int) + 1),
      (Instr.sub 2 0 1, 2147483646 - 1), (Instr.mul 2 0 1, 2147483646 * 1)])
    ∧ (pre [] 1 100 99 []).isWord (2147483646 + 1) ∧ ¬ (pre [] 1 100 99 []).isWord (2147483647 + 1) := by decide

theorem witness_DivTruncatesTowardZero :
    ((pre [(0, -7), (1, 2)] 1 100 99 []).rf.get 0 = some (-7) ∧ (pre [(0, -7), (1, 2)] 1 100 99 []).rf.get 1 = some 2)
    ∧ ((2 : Int) ≠ 0 ∧ (-7 : Int) = -3 * 2 + -1 ∧ |(-1 : Int)| < |(2 : Int)| ∧ (0 : Int) ≤ -1 * -7
      ∧ (pre [] 1 100 99 []).isWord (-3))
    ∧ ((-1 : Int) ≠ 0 ∧ (-2147483648 : Int) = 2147483648 * -1 + 0 ∧ |(0 : Int)| < |(-1 : Int)|
      ∧ (0 : Int) ≤ 0 * -2147483648 ∧ ¬ (pre [] 1 100 99 []).isWord 2147483648)
    ∧ (pre [(0, 1), (1, 0)] 1 100 99 []).rf.get 1 = some 0 := by decide

/-- The corner WORD_MIN by -1, the same divisor with another dividend, WORD_MIN with another divisor, and UNBOUNDED. -/
theorem witness_ModTakesTheDividendsSign :
    ((pre [(0, 7), (1, -2)] 1 100 99 []).rf.get 0 = some 7 ∧ (pre [(0, 7), (1, -2)] 1 100 99 []).rf.get 1 = some (-2))
    ∧ ((-2 : Int) ≠ 0 ∧ (7 : Int) = -3 * -2 + 1 ∧ |(1 : Int)| < |(-2 : Int)| ∧ (0 : Int) ≤ 1 * 7 ∧ (-2 : Int) ≠ -1)
    ∧ ((pre [] 1 100 99 []).params.wordBits = .bounded 32 ∧ (-2147483648 : Int) = -((2 ^ (32 - 1) : Nat) : Int))
    ∧ ((-2147483647 : Int) ≠ -((2 ^ (32 - 1) : Nat) : Int) ∧ (-2147483647 : Int) = 2147483647 * -1 + 0
      ∧ |(0 : Int)| < |(-1 : Int)| ∧ (0 : Int) ≤ 0 * -2147483647)
    ∧ ({ start [] [] with params := { vector with wordBits := .unbounded } } : State).params.wordBits = .unbounded
    ∧ (pre [(0, 1), (1, 0)] 1 100 99 []).rf.get 1 = some 0 := by decide

theorem witness_OddWritesTheSignedParity :
    (pre [(0, -3)] 1 100 99 []).rf.get 0 = some (-3) ∧ (pre [(0, -3)] 1 100 99 []).rf.get 1 = none := by decide

theorem witness_QuotientAndRemainderRecomposeTheDividend :
    exec (.div 2 0 1) (pre [(0, -7), (1, 2)] 1 100 99 []) = .next (run (.div 2 0 1) (pre [(0, -7), (1, 2)] 1 100 99 []))
    ∧ (run (.div 2 0 1) (pre [(0, -7), (1, 2)] 1 100 99 [])).run ≠ .faulted
    ∧ exec (.mod 3 0 1) (pre [(0, -7), (1, 2)] 1 100 99 []) = .next (run (.mod 3 0 1) (pre [(0, -7), (1, 2)] 1 100 99 []))
    ∧ (run (.mod 3 0 1) (pre [(0, -7), (1, 2)] 1 100 99 [])).run ≠ .faulted :=
  ⟨exec_run _ _, by decide, exec_run _ _, by decide⟩

/-- For both relation statements: two equal words, and two in each order. -/
theorem witness_RelationsCompareSignedWords :
    (∀ y ∈ ([-1, 0, 1] : List Int), (pre [(0, 0), (1, y)] 1 100 99 []).rf.get 0 = some 0
      ∧ (pre [(0, 0), (1, y)] 1 100 99 []).rf.get 1 = some y)
    ∧ (Instr.lss 2 0 1, true) ∈ [(Instr.eql 2 0 1, decide ((0 : Int) = 1)), (Instr.neq 2 0 1, decide ((0 : Int) ≠ 1)),
      (Instr.lss 2 0 1, decide ((0 : Int) < 1)), (Instr.leq 2 0 1, decide ((0 : Int) ≤ 1)),
      (Instr.gtr 2 0 1, decide ((1 : Int) < 0)), (Instr.geq 2 0 1, decide ((1 : Int) ≤ 0))] := by decide

theorem witness_RelationsWriteZeroOrOne :
    Instr.eql 2 0 1 ∈ [Instr.eql 2 0 1, .neq 2 0 1, .lss 2 0 1, .leq 2 0 1, .gtr 2 0 1, .geq 2 0 1]
    ∧ exec (.eql 2 0 1) (pre [(0, 3), (1, 3)] 1 100 99 []) = .next (run (.eql 2 0 1) (pre [(0, 3), (1, 3)] 1 100 99 []))
    ∧ (run (.eql 2 0 1) (pre [(0, 3), (1, 3)] 1 100 99 [])).run ≠ .faulted :=
  ⟨by decide, exec_run _ _, by decide⟩

theorem witness_BinarySourcesAreReadInOrder :
    (pre [] 1 100 99 []).rf.get 0 = none
    ∧ ((pre [(0, 3)] 1 100 99 []).rf.get 0 = some 3 ∧ (pre [(0, 3)] 1 100 99 []).rf.get 1 = none)
    ∧ Instr.geq 2 0 1 ∈ [Instr.add 2 0 1, .sub 2 0 1, .mul 2 0 1, .div 2 0 1, .mod 2 0 1, .eql 2 0 1, .neq 2 0 1,
      .lss 2 0 1, .leq 2 0 1, .gtr 2 0 1, .geq 2 0 1] := by decide

/-- Each outcome of the statement: completed, faulted, waiting. -/
theorem witness_RegisterWritersFrame :
    (exec (.lit 0 1) (pre [] 1 100 99 []) = .next (run (.lit 0 1) (pre [] 1 100 99 []))
      ∧ (run (.lit 0 1) (pre [] 1 100 99 [])).run = (pre [] 1 100 99 []).run ∧ (pre [] 1 100 99 []).run = .running)
    ∧ (exec (.neg 0) (pre [] 1 100 99 []) = .next (run (.neg 0) (pre [] 1 100 99 []))
      ∧ (run (.neg 0) (pre [] 1 100 99 [])).run = .faulted)
    ∧ (exec (.sysRead 0) (pre [] 1 100 99 []) = .next (run (.sysRead 0) (pre [] 1 100 99 []))
      ∧ (run (.sysRead 0) (pre [] 1 100 99 [])).run = .waitInput) :=
  ⟨⟨exec_run _ _, by decide, by decide⟩, ⟨exec_run _ _, by decide⟩, ⟨exec_run _ _, by decide⟩⟩

theorem witness_ControlInstructionsFrame :
    (exec (.inc 4) (pre [] 1 96 99 []) = .next (run (.inc 4) (pre [] 1 96 99 []))
      ∧ (run (.inc 4) (pre [] 1 96 99 [])).run ≠ .faulted)
    ∧ (exec (.inc 97) (pre [] 1 96 99 []) = .next (run (.inc 97) (pre [] 1 96 99 []))
      ∧ (run (.inc 97) (pre [] 1 96 99 [])).run = .faulted) :=
  ⟨⟨exec_run _ _, by decide⟩, ⟨exec_run _ _, by decide⟩⟩

end Sys2Proof.Tests
end

section
/-! PROOFS. The halt flag and the program memory (10_state R32 and R37): what a running step leads to, when it halts, and
that nothing but the fetch looks at the program. -/

namespace Sys2Proof.Machine

/-! ## A step from Running, by what it fetches and decodes -/

theorem step_of_fetch_error {s : State} {e : Raise} (hr : s.run = .running) (hf : s.fetch = .error e) :
    step s = .next (s.takeError s.pc none e) := by
  simp only [step, hr, State.fetchDecode, hf]

theorem step_of_decode_error {s : State} {q : Quad} {e : Raise} (hr : s.run = .running) (hf : s.fetches q)
    (hd : decode q = .error e) : step s = .next ((s.latch q).raise e) := by
  simp only [step, hr, State.fetchDecode, fetch_iff.mpr hf, hd]

theorem step_of_decode_ok {s : State} {q : Quad} {i : Instr} (hr : s.run = .running) (hf : s.fetches q)
    (hd : decode q = .ok i) : step s = exec i (s.latch q) := by
  simp only [step, hr, State.fetchDecode, fetch_iff.mpr hf, hd]

theorem step_of_waitInput {s : State} (hr : s.run = .waitInput) : step s = resume s := by
  simp only [step, hr]

/-- 10_state R32: the loop goes on while the engine is Running. -/
theorem step_total_of_running {s : State} (hr : s.run = .running) : ∃ t, step s = .next t := by
  cases hf : s.fetch with
  | error e => exact ⟨_, step_of_fetch_error hr hf⟩
  | ok q =>
    have hq : s.fetches q := fetch_iff.mp hf
    cases hd : decode q with
    | error e => exact ⟨_, step_of_decode_error hr hq hd⟩
    | ok i =>
      obtain ⟨t, ht⟩ := exec_total i (s.latch q)
      exact ⟨t, (step_of_decode_ok hr hq hd).trans ht⟩

/-! ## The halt flag -/

theorem State.halted_iff (s : State) : s.halted = true ↔ s.run = .halted := by simp [State.halted]

theorem State.halted_eq_false_iff (s : State) : s.halted = false ↔ s.run ≠ .halted := by simp [State.halted]

/-- SYS halt is the one instruction that ends Halted. -/
theorem exec_run_halted_iff {i : Instr} {s t : State} (h : exec i s = .next t) (hs : s.run ≠ .halted) :
    t.run = .halted ↔ i = .sysHalt := by
  cases exec_cases h with
  | unary r v hi => rcases hi with rfl | rfl <;> simp [hs]
  | binary r a b v hi =>
    have hne : i ≠ .sysHalt := by rintro rfl; simp at hi
    simp [hs, hne]
  | raise hi he =>
    have hne : i ≠ .sysHalt := by rintro rfl; simpa [raisedBy] using he.cause
    simp [hne]
  | _ => simp [hs]

/-- A step ends Halted exactly when it executes a SYS halt it fetched. -/
theorem step_run_halted_iff {s t : State} (h : step s = .next t) :
    t.run = .halted ↔ s.run = .running ∧ ∃ q, s.fetches q ∧ decode q = .ok .sysHalt := by
  rcases step_cases h with ⟨hr, ⟨hp, rfl⟩ | ⟨q, hq, hstep⟩⟩ | ⟨hr, hwait⟩
  · have hnone : ¬ ∃ q, s.fetches q ∧ decode q = .ok .sysHalt := by
      rintro ⟨q, hq, -⟩
      have hfail := fetch_error_iff.mpr ⟨hp, rfl⟩
      rw [fetch_iff.mpr hq] at hfail
      cases hfail
    simp [hnone]
  · have hfetched : (∃ q', s.fetches q' ∧ decode q' = .ok .sysHalt) ↔ decode q = .ok .sysHalt :=
      ⟨fun ⟨q', hq', hd'⟩ => fetches_unique hq hq' ▸ hd', fun hd => ⟨q, hq, hd⟩⟩
    rcases hstep with ⟨e, hd, rfl⟩ | ⟨i, hd, hexec⟩
    · simp [hfetched, hd]
    · simp [hfetched, hd, hr, exec_run_halted_iff hexec]
  · rcases hwait with ⟨-, rfl⟩ | ⟨a, rest, q, r, -, -, -, hexec⟩
    · simp [hr]
    · have hresumed : s.resumeRead.run ≠ .halted := by simp
      simp [hr, exec_run_halted_iff hexec hresumed]

/-- Settles O21: the flag is the run state Halted, so every clause is one about where a step leads. -/
theorem onlySysHaltSetsTheHaltFlag : Obligations.OnlySysHaltSetsTheHaltFlag := by
  refine ⟨State.halted_iff, fun _ _ _ => rfl, fun _ => rfl, ?_, fun s => step_total_of_running, ?_⟩
  · intro s t hs h
    simp [step, s.halted_iff.mp hs] at h
  · intro s t h
    refine ⟨t.halted_iff.trans (step_run_halted_iff h), fun hf => ?_⟩
    simp [State.halted_eq_false_iff, hf]

/-! ## The program -/

/-- The state with another program in place of its own. -/
def State.withImage (image : List Quad) (s : State) : State := { s with imem := image }

/-- No register or stack operation looks at the program. -/
theorem withImage_blindStack (image : List Quad) : BlindStack (State.withImage image) where
  rf _ := rfl
  params _ := rfl
  pc _ := rfl
  raise _ _ := rfl
  writeReg _ _ _ := rfl
  setPc _ _ := rfl
  halt _ := rfl
  st _ := rfl
  writeCell _ _ _ := rfl

/-- An instruction does under any program what it does under the present one (20_memory R63). -/
theorem exec_withImage (image : List Quad) {i : Instr} {s t : State} (h : exec i s = .next t) :
    exec i (s.withImage image) = .next (t.withImage image) := by
  have hg := withImage_blindStack image
  cases i with
  | rtn => exact rtn_map hg (fun _ => rfl) (fun _ _ _ _ => rfl) h
  | lod r l m => exact lod_map hg (fun _ => rfl) h
  | sto r l m => exact sto_map hg (fun _ => rfl) h
  | cal l m => exact cal_map hg (fun _ => rfl) (fun _ => rfl) (fun _ _ _ => rfl) h
  | inc n => exact inc_map hg.toBlind (fun _ => rfl) (fun _ _ => rfl) h
  | sysWrite r => exact sysWrite_map hg.toBlind (fun _ _ _ => rfl) h
  | sysRead r => exact sysRead_map hg.toBlind (fun _ => rfl) (fun _ _ => rfl) (fun _ => rfl) h
  | _ => exact exec_map hg.toBlind h trivial

theorem step_keeps_imem {s t : State} (h : step s = .next t) : t.imem = s.imem := by
  rcases step_cases h with ⟨-, ⟨-, rfl⟩ | ⟨q, -, ⟨e, -, rfl⟩ | ⟨i, -, hexec⟩⟩⟩ |
    ⟨-, ⟨-, rfl⟩ | ⟨a, rest, q, r, -, -, -, hexec⟩⟩
  · rfl
  · rfl
  · exact (exec_keeps hexec).1
  · rfl
  · exact (exec_keeps hexec).1

/-- A waiting engine does not look at the program: the read it resumes stands in IR. -/
theorem step_withImage_of_waitInput (image : List Quad) {s t : State} (hr : s.run = .waitInput)
    (h : step s = .next t) : step (s.withImage image) = .next (t.withImage image) := by
  have hr' : (s.withImage image).run = .waitInput := hr
  rw [step_of_waitInput hr] at h
  rcases resume_cases h with ⟨ha, rfl⟩ | ⟨a, rest, q, r, ha, hq, hd, hexec⟩
  · have ha' : (t.withImage image).answers = [] := ha
    rw [step_of_waitInput hr', resume, ha']
  · exact (step_resume hr' hq hd ha).trans (exec_withImage image hexec)

/-- A running engine looks at the program only for the quadruple at PC. -/
theorem step_withImage_of_running {image : List Quad} {s t : State} {q : Quad} (hr : s.run = .running)
    (hq : s.fetches q) (himage : image[s.pc.toNat]? = some q) (h : step s = .next t) :
    step (s.withImage image) = .next (t.withImage image) := by
  have hr' : (s.withImage image).run = .running := hr
  have hq' : (s.withImage image).fetches q := ⟨hq.1, himage⟩
  cases hd : decode q with
  | error e =>
    rw [step_of_decode_error hr hq hd] at h
    cases h
    exact step_of_decode_error hr' hq' hd
  | ok i =>
    rw [step_of_decode_ok hr hq hd] at h
    exact (step_of_decode_ok hr' hq' hd).trans (exec_withImage image h)

/-- Settles O25: only the fetch looks at the program, and nothing writes it. -/
theorem programIsOnlyFetched : Obligations.ProgramIsOnlyFetched :=
  ⟨fun _ _ _ => rfl, fun _ => rfl, fun _ _ => step_keeps_imem,
    fun _ _ _ image h => ⟨(exec_keeps h).1, exec_withImage image h⟩,
    fun _ _ image => step_withImage_of_waitInput image,
    fun _ _ _ _ => step_withImage_of_running⟩

end Sys2Proof.Machine
end

section
/-! PROOFS. The address resolver (20_memory R55): what one hop reads, and the chain of hops that a walk follows. -/

namespace Sys2Proof.Machine

/-! ## One hop -/

/-- A hop answers the word of an existing cell (20_memory R57). -/
theorem State.linkRead_ok_iff {s : State} {a v : Int} :
    s.linkRead a = .ok v ↔ s.inArray a ∧ s.cell a.toNat = some v :=
  ⟨State.readCell_ok, fun ⟨hin, hcell⟩ => State.readCell_some .resolveRange hin hcell⟩

/-- A walk of one level more is a hop from `b` and then the walk from where it leads. -/
theorem State.resolve_succ_ok_iff {s : State} {l : Nat} {b c : Int} :
    s.resolve (l + 1) b = .ok c ↔ ∃ x, s.linkRead b = .ok x ∧ s.resolve l x = .ok c := by
  rw [State.resolve_succ, Except.bindOk_iff]

/-! ## The chain of hops -/

/-- The addresses `hop` with `b` put before them. -/
def prependHop (b : Int) (hop : Nat → Int) : Nat → Int
  | 0 => b
  | k + 1 => hop k

/-- The resolver follows a chain of hops, each from the address the one before it answered. A first hop is put before a
chain by `prependHop`, and taken off by dropping its first address. -/
theorem State.resolve_ok_iff_chain {s : State} {l : Nat} {b c : Int} :
    s.resolve l b = .ok c ↔
      ∃ hop : Nat → Int, hop 0 = b ∧ hop l = c ∧ ∀ k, k < l → s.linkRead (hop k) = .ok (hop (k + 1)) := by
  induction l generalizing b with
  | zero =>
    constructor
    · intro h
      exact ⟨fun _ => b, rfl, Except.ok.inj h, nofun⟩
    · rintro ⟨hop, rfl, rfl, -⟩
      rfl
  | succ l ih =>
    rw [State.resolve_succ_ok_iff]
    constructor
    · rintro ⟨x, hfirst, hwalk⟩
      obtain ⟨hop, rfl, hend, hlinks⟩ := ih.mp hwalk
      exact ⟨prependHop b hop, rfl, hend, Nat.forall_lt_succ_left.mpr ⟨hfirst, hlinks⟩⟩
    · rintro ⟨hop, rfl, hend, hlinks⟩
      obtain ⟨hfirst, hrest⟩ := Nat.forall_lt_succ_left.mp hlinks
      exact ⟨hop 1, hfirst, ih.mpr ⟨fun k => hop (k + 1), rfl, hend, hrest⟩⟩

/-- Settles O32: the resolver follows a chain of hops, and a hop is a read of a cell of the array that holds a word. -/
theorem resolverWalksTheStaticLinkChain : Obligations.ResolverWalksTheStaticLinkChain := by
  intro s l b c
  simp only [State.resolve_ok_iff_chain, State.linkRead_ok_iff]

end Sys2Proof.Machine
end

section
/-! PROOFS. The step (30_encoding R78, R87, R91): where none occurs, what an illegal opcode leads to, and where an
instruction leaves PC. -/

namespace Sys2Proof.Machine

/-! ## The stopped engine -/

theorem step_of_halted {s : State} (hr : s.run = .halted) : step s = .fault .engineHalted := by
  simp only [step, hr]

theorem step_of_faulted {s : State} (hr : s.run = .faulted) : step s = .fault .engineFaulted := by
  simp only [step, hr]

/-- Settles O20: in Halted and in Faulted a step answers a fault of the model, which is no next state. -/
theorem noStepAfterHaltOrFault : Obligations.NoStepAfterHaltOrFault := by
  rintro s t (hr | hr)
  · rw [step_of_halted hr]
    exact nofun
  · rw [step_of_faulted hr]
    exact nofun

/-! ## The illegal opcode -/

/-- An error at decode undoes the advance of PC, so that the record names the index and the quadruple of the fetch. -/
theorem State.latch_raise (s : State) (q : Quad) (e : Raise) :
    (s.latch q).raise e = { s with ir := some q, run := .faulted, err := some ⟨e.cause, s.pc, some q, e.info⟩ } := by
  simp [State.raise, State.takeError, State.latch]

/-- Settles O15: the opcode is the decoder's first check, so the step takes that error, and no step follows one. -/
theorem badOpcodeIsFatalDecodeError : Obligations.BadOpcodeIsFatalDecodeError := by
  refine ⟨fun _ => decode_badOpcode, fun s q hr hq hop => ?_⟩
  have hstep := step_of_decode_error hr hq (decode_badOpcode hop)
  rw [State.latch_raise] at hstep
  exact ⟨_, _, hstep, rfl, rfl, rfl, rfl, fun u => noStepAfterHaltOrFault _ u (.inr rfl)⟩

/-! ## Where an instruction leaves PC -/

theorem exec_jpc_of_zero {s : State} {r : Reg} (m : Int) (hz : s.rf.get r = some 0) :
    exec (.jpc r m) s = .next (s.setPc m) := by
  simp [exec, execJpc, State.readReg_some hz, State.finish_ok]

theorem exec_cal_pc {s t : State} {l : Nat} {m : Int} (h : exec (.cal l m) s = .next t) (ht : t.run = .running) :
    t.pc = m := by
  cases exec_cases h with
  | raise => simp at ht
  | unary _ _ hi => simp at hi
  | binary _ _ _ _ hi => simp at hi
  | cal => rfl

/-- RTN returns to the word in the third cell below the new SP (42_activation R101). -/
theorem exec_rtn_pc {s t : State} (h : exec .rtn s = .next t) (ht : t.run = .running) :
    s.cell (t.sp - 3).toNat = some t.pc := by
  cases exec_cases h with
  | raise => simp at ht
  | unary _ _ hi => simp at hi
  | binary _ _ _ _ hi => simp at hi
  | rtn dl ra _ _ _ hra =>
    have hsp : s.bp + 1 - 3 = s.bp - 2 := by omega
    simpa [hsp] using hra

/-- An instruction that goes on with another PC than the advanced one is a control transfer. -/
theorem exec_transfer_of_pc_ne {s t : State} {i : Instr} (h : exec i s = .next t) (ht : t.run = .running)
    (hpc : t.pc ≠ s.pc) :
    i = .rtn ∨ (∃ m, i = .jmp m) ∨ (∃ r m, i = .jpc r m) ∨ ∃ l m, i = .cal l m := by
  cases exec_cases h with
  | raise | sysWait | sysReadError => simp at ht
  | rtn | jmp | jpcTaken | cal => simp
  | _ => exact absurd rfl hpc

/-- Settles O47: an instruction that goes on raised no error, so its PC is the one its meaning gives. -/
theorem transfersWriteTheirLiteralTarget : Obligations.TransfersWriteTheirLiteralTarget := by
  refine ⟨?_, fun _ _ _ => exec_rtn_pc, fun _ _ _ _ => exec_transfer_of_pc_ne, fun _ _ _ => step_of_decode_ok⟩
  rintro s t i m - h ht (rfl | ⟨r, rfl, hz⟩ | ⟨l, rfl⟩)
  · cases h
    rfl
  · rw [exec_jpc_of_zero m hz] at h
    cases h
    rfl
  · exact exec_cal_pc h ht

end Sys2Proof.Machine
end

section
/-! PROOFS. LIT (41_load_store R96): what its quadruples decode to, and what it does. -/

namespace Sys2Proof

theorem decodeReg_error {q : Quad} (f : Reg → Instr) (h : ¬ (0 ≤ q.r ∧ q.r ≤ 6)) :
    decodeReg q f = .error ⟨.regIndex, q.r⟩ := by
  rw [decodeReg, regField_error h]
  rfl

/-- Opcode 1 decodes by field r alone, with m the immediate and l not looked at (30_encoding R73). -/
theorem decode_opcode_one (r l m : Int) : decode ⟨1, r, l, m⟩ = decodeReg ⟨1, r, l, m⟩ (fun k => .lit k m) := rfl

theorem decode_lit (k : Reg) (l m : Int) : decode ⟨1, k.val, l, m⟩ = .ok (.lit k m) := by
  rw [decode_opcode_one, decodeReg_iff]
  exact ⟨k, rfl, rfl⟩

theorem decode_lit_error {r : Int} (l m : Int) (h : ¬ (0 ≤ r ∧ r ≤ 6)) :
    decode ⟨1, r, l, m⟩ = .error ⟨.regIndex, r⟩ := by
  rw [decode_opcode_one, decodeReg_error _ h]

end Sys2Proof

namespace Sys2Proof.Machine

/-- LIT raises no error and reads no register. -/
theorem exec_lit (r : Reg) (v : Int) (s : State) : exec (.lit r v) s = .next (s.writeReg r v) := rfl

/-- Settles O35: the decoder checks only field r, and the step writes the register after the fetch's two writes. -/
theorem litLoadsItsImmediate : Obligations.LitLoadsItsImmediate := by
  refine ⟨fun r l m => ⟨?_, decode_lit_error l m⟩, exec_lit, fun s k l m hr hq => ?_⟩
  · rintro k rfl
    exact decode_lit k l m
  · rw [step_of_decode_ok hr hq (decode_lit k l m), exec_lit]
    rfl

end Sys2Proof.Machine
end

section
/-! PROOFS. JMP and JPC (43_jump R109, R110): what their quadruples decode to, what they do, and the fetch at the
target. -/

namespace Sys2Proof

/-- JMP uses field m alone (30_encoding R73). -/
theorem decode_jmp (r l m : Int) : decode ⟨7, r, l, m⟩ = .ok (.jmp m) := rfl

/-- Opcode 8 decodes by field r alone, with m the target and l not looked at (30_encoding R73). -/
theorem decode_opcode_eight (r l m : Int) : decode ⟨8, r, l, m⟩ = decodeReg ⟨8, r, l, m⟩ (fun k => .jpc k m) := rfl

theorem decode_jpc (k : Reg) (l m : Int) : decode ⟨8, k.val, l, m⟩ = .ok (.jpc k m) := by
  rw [decode_opcode_eight, decodeReg_iff]
  exact ⟨k, rfl, rfl⟩

theorem decode_jpc_error {r : Int} (l m : Int) (h : ¬ (0 ≤ r ∧ r ≤ 6)) :
    decode ⟨8, r, l, m⟩ = .error ⟨.regIndex, r⟩ := by
  rw [decode_opcode_eight, decodeReg_error _ h]

end Sys2Proof

namespace Sys2Proof.Machine

/-! ## What the jumps do -/

/-- JMP raises no error: the target is not checked (10_state R29). -/
theorem exec_jmp (m : Int) (s : State) : exec (.jmp m) s = .next (s.setPc m) := rfl

theorem exec_jpc_of_ne_zero {s : State} {r : Reg} {v : Int} (m : Int) (hv : s.rf.get r = some v) (hne : v ≠ 0) :
    exec (.jpc r m) s = .next s := by
  simp [exec, execJpc, State.readReg_some hv, hne, State.finish_ok]

theorem exec_jpc_of_empty {s : State} {r : Reg} (m : Int) (hr : s.rf.get r = none) :
    exec (.jpc r m) s = .next (s.raise ⟨.regUnwritten, regWord r⟩) := by
  simp [exec, execJpc, State.readReg_none hr, State.finish_error]

/-! ## The fetch at the target -/

/-- A fetch outside the program records the PC and no instruction (30_encoding R88). -/
theorem step_of_pc_outside {s : State} (hr : s.run = .running) (hp : s.pc < 0 ∨ (s.imem.length : Int) ≤ s.pc) :
    step s = .next (s.takeError s.pc none ⟨.pcRange, s.pc⟩) :=
  step_of_fetch_error hr (fetch_error_iff.mpr ⟨hp, rfl⟩)

/-- The step after a jump out of the program raises PC_RANGE with the target. -/
theorem step_setPc_outside {s : State} {m : Int} (hr : s.run = .running) (hm : m < 0 ∨ (s.imem.length : Int) ≤ m) :
    ∃ u e, step (s.setPc m) = .next u ∧ u.run = .faulted ∧ u.err = some e ∧ e.cause = .pcRange ∧ e.info = m :=
  ⟨_, _, step_of_pc_outside (s := s.setPc m) hr hm, rfl, rfl, rfl, rfl⟩

/-- The step after a jump into the program executes the instruction at the target. -/
theorem step_setPc_inside {s : State} {m : Int} {q : Quad} {i : Instr} (hr : s.run = .running)
    (hq : 0 ≤ m ∧ s.imem[m.toNat]? = some q) (hd : decode q = .ok i) :
    step (s.setPc m) = exec i ((s.setPc m).latch q) :=
  step_of_decode_ok (s := s.setPc m) hr hq hd

/-- The jump to its own index undoes the fetch's advance of PC. -/
theorem step_self_jump {s : State} {r l : Int} (hr : s.run = .running) (hq : s.fetches ⟨7, r, l, s.pc⟩) :
    step s = .next ((s.latch ⟨7, r, l, s.pc⟩).setPc s.pc) := by
  rw [step_of_decode_ok hr hq (decode_jmp r l s.pc), exec_jmp]

/-- Settles O45: JMP commits the target whatever it is, so the next step is the fetch there. -/
theorem jmpTakesItsTarget : Obligations.JmpTakesItsTarget := by
  refine ⟨decode_jmp, fun s m => exec_jmp m s, fun s t m hr h => ?_, fun s r l => step_self_jump⟩
  rw [exec_jmp] at h
  cases h
  exact ⟨fun q i => step_setPc_inside hr, step_setPc_outside hr⟩

/-- Settles O46: the register decides between the target, the advanced PC and the error, and the fetch after a taken
jump is the one after a JMP. -/
theorem jpcJumpsExactlyOnZero : Obligations.JpcJumpsExactlyOnZero := by
  refine ⟨fun r l m => ⟨?_, decode_jpc_error l m⟩, fun s r m =>
    ⟨exec_jpc_of_zero m, fun v => exec_jpc_of_ne_zero m, fun hempty => ?_, fun t hr hz hm h => ?_⟩⟩
  · rintro k rfl
    exact decode_jpc k l m
  · exact ⟨_, _, exec_jpc_of_empty m hempty, rfl, rfl, rfl, rfl, rfl⟩
  · rw [exec_jpc_of_zero m hz] at h
    cases h
    exact step_setPc_outside hr hm

end Sys2Proof.Machine
end

section
/-! PROOFS. SYS write (44_system R113): what its quadruples decode to, what it does, and that a fault emits nothing. -/

namespace Sys2Proof

/-- Opcode 9 with m = 1 decodes by field r alone, with l not looked at (30_encoding R73, R77). -/
theorem decode_opcode_nine_one (r l : Int) : decode ⟨9, r, l, 1⟩ = decodeReg ⟨9, r, l, 1⟩ .sysWrite := rfl

theorem decode_sysWrite (k : Reg) (l : Int) : decode ⟨9, k.val, l, 1⟩ = .ok (.sysWrite k) := by
  rw [decode_opcode_nine_one, decodeReg_iff]
  exact ⟨k, rfl, rfl⟩

theorem decode_sysWrite_error {r : Int} (l : Int) (h : ¬ (0 ≤ r ∧ r ≤ 6)) :
    decode ⟨9, r, l, 1⟩ = .error ⟨.regIndex, r⟩ := by
  rw [decode_opcode_nine_one, decodeReg_error _ h]

end Sys2Proof

namespace Sys2Proof.Machine

/-! ## What SYS write does -/

theorem exec_sysWrite_of_word {s : State} {r : Reg} {v : Int} (hv : s.rf.get r = some v) :
    exec (.sysWrite r) s = .next (s.emit r v) := by
  simp [exec, execSysWrite, State.readReg_some hv, State.finish_ok]

theorem exec_sysWrite_of_empty {s : State} {r : Reg} (hr : s.rf.get r = none) :
    exec (.sysWrite r) s = .next (s.raise ⟨.regUnwritten, regWord r⟩) := by
  simp [exec, execSysWrite, State.readReg_none hr, State.finish_error]

/-! ## The log of a faulting step -/

/-- Only a SYS write that completes emits, and it leaves the run state as it is. -/
theorem exec_keeps_out_of_faulted {i : Instr} {s t : State} (h : exec i s = .next t) (hs : s.run ≠ .faulted)
    (ht : t.run = .faulted) : t.out = s.out := by
  cases exec_cases h with
  | sysWrite => exact absurd ht hs
  | _ => rfl

theorem step_keeps_out_of_faulted {s t : State} (h : step s = .next t) (ht : t.run = .faulted) : t.out = s.out := by
  rcases step_cases h with ⟨hr, ⟨-, rfl⟩ | ⟨q, -, ⟨e, -, rfl⟩ | ⟨i, -, hexec⟩⟩⟩ |
    ⟨-, ⟨-, rfl⟩ | ⟨a, rest, q, r, -, -, -, hexec⟩⟩
  · rfl
  · rfl
  · have hlatch : (s.latch q).run ≠ .faulted := by simp [hr]
    exact (exec_keeps_out_of_faulted hexec hlatch ht).trans (s.latch_out q)
  · rfl
  · have hresumed : s.resumeRead.run ≠ .faulted := by simp
    exact (exec_keeps_out_of_faulted hexec hresumed ht).trans s.resumeRead_out

/-- Settles O48: the register decides between the event and the error, and only a completed SYS write emits. -/
theorem sysWriteEmitsItsRegister : Obligations.SysWriteEmitsItsRegister := by
  refine ⟨fun r l => ⟨?_, decode_sysWrite_error l⟩, fun s r => ⟨fun v => exec_sysWrite_of_word, fun hempty => ?_⟩,
    fun s t => step_keeps_out_of_faulted⟩
  · rintro k rfl
    exact decode_sysWrite k l
  · exact ⟨_, _, exec_sysWrite_of_empty hempty, rfl, rfl, rfl, rfl, rfl, rfl⟩

end Sys2Proof.Machine
end

section
/-! PROOFS. The relations (46_relational R129 to R136): the comparison each makes, the 0 or 1 it writes, and the JPC that
reads it. -/

namespace Sys2Proof.Machine

theorem State.get_writeReg_same (s : State) (r : Reg) (v : Int) : (s.writeReg r v).rf.get r = some v := by
  rw [State.get_writeReg, if_pos rfl]

/-! ## The six relations as one -/

/-- Each relation with the comparison it makes of its two source words (R130 to R135). -/
def comparisons (r a b : Reg) : List (Instr × (Int → Int → Bool)) :=
  [(.eql r a b, fun x y => decide (x = y)), (.neq r a b, fun x y => decide (x ≠ y)),
    (.lss r a b, fun x y => decide (x < y)), (.leq r a b, fun x y => decide (x ≤ y)),
    (.gtr r a b, fun x y => decide (y < x)), (.geq r a b, fun x y => decide (y ≤ x))]

/-- A relation is a binary operation that raises no error of its own and writes the truth of its comparison. -/
theorem exec_comparison {i : Instr} {p : Int → Int → Bool} {r a b : Reg} (h : (i, p) ∈ comparisons r a b) (s : State) :
    exec i s = s.binary r a b (fun x y => .ok (truth (p x y))) := by
  simp only [comparisons, List.mem_cons, List.not_mem_nil, or_false, Prod.mk.injEq] at h
  rcases h with ⟨rfl, rfl⟩ | ⟨rfl, rfl⟩ | ⟨rfl, rfl⟩ | ⟨rfl, rfl⟩ | ⟨rfl, rfl⟩ | ⟨rfl, rfl⟩ <;> rfl

/-- A relation of two words writes the truth of its comparison and changes nothing else. -/
theorem exec_comparison_of_words {i : Instr} {p : Int → Int → Bool} {s : State} {r a b : Reg} {x y : Int}
    (h : (i, p) ∈ comparisons r a b) (hx : s.rf.get a = some x) (hy : s.rf.get b = some y) :
    exec i s = .next (s.writeReg r (truth (p x y))) := by
  rw [exec_comparison h, binary_some hx hy, Except.okBind, State.finish_ok]

/-- A relation that completes wrote the truth of some comparison: an error would have left the run state Faulted. -/
theorem exec_comparison_completed {i : Instr} {p : Int → Int → Bool} {s t : State} {r a b : Reg}
    (h : (i, p) ∈ comparisons r a b) (hexec : exec i s = .next t) (ht : t.run ≠ .faulted) :
    ∃ c, t = s.writeReg r (truth c) := by
  rw [exec_comparison h] at hexec
  rcases State.finish_cases hexec with hwrite | ⟨e, -, rfl⟩
  · obtain ⟨x, -, hwrite⟩ := Except.bindOk hwrite
    obtain ⟨y, -, hwrite⟩ := Except.bindOk hwrite
    cases hwrite
    exact ⟨p x y, rfl⟩
  · simp at ht

/-! ## JPC on the result of a relation -/

theorem exec_jpc_writeReg_false (s : State) (r : Reg) (m : Int) :
    exec (.jpc r m) (s.writeReg r (truth false)) = .next ((s.writeReg r (truth false)).setPc m) :=
  exec_jpc_of_zero m (s.get_writeReg_same r _)

theorem exec_jpc_writeReg_true (s : State) (r : Reg) (m : Int) :
    exec (.jpc r m) (s.writeReg r (truth true)) = .next (s.writeReg r (truth true)) :=
  exec_jpc_of_ne_zero m (s.get_writeReg_same r _) one_ne_zero

/-- Settles O57: the statement's two lists are those of `comparisons`, and the word written is the truth of one, on
which JPC decides. -/
theorem relationsWriteZeroOrOne : Obligations.RelationsWriteZeroOrOne := by
  constructor
  · intro s t r a b i hi hexec ht
    have hi' : i ∈ (comparisons r a b).map Prod.fst := hi
    obtain ⟨⟨_, p⟩, hp, rfl⟩ := List.mem_map.mp hi'
    obtain ⟨c, rfl⟩ := exec_comparison_completed hp hexec ht
    rw [State.get_writeReg_same]
    cases c with
    | false => exact .inl rfl
    | true => exact .inr rfl
  · intro s r a b x y m hx hy i c hi
    have hi' : (i, c) ∈ (comparisons r a b).map (fun e => (e.1, e.2 x y)) := hi
    obtain ⟨⟨_, p⟩, hp, heq⟩ := List.mem_map.mp hi'
    obtain ⟨rfl, hc : p x y = c⟩ := Prod.mk.inj heq
    have hexec := exec_comparison_of_words hp hx hy
    rw [hc] at hexec
    refine ⟨_, hexec, ?_, ?_⟩
    · rintro rfl
      exact ⟨s.get_writeReg_same r _, exec_jpc_writeReg_false s r m⟩
    · rintro rfl
      exact ⟨s.get_writeReg_same r _, exec_jpc_writeReg_true s r m⟩

end Sys2Proof.Machine
end

section
/-! PROOFS. Where a DecodeError comes from (60_exceptions R139): its causes, and the phase that raises it. -/

namespace Sys2Proof.Machine

/-- The kind column of 60_exceptions R138 for the decode errors. -/
theorem Cause.kind_eq_decodeError_iff (c : Cause) : c.kind = .decodeError ↔ c = .badOpcode ∨ c = .badSys := by
  cases c <;> simp [Cause.kind]

/-- An instruction that ends Faulted took an error of its own: every other outcome leaves a run state that is not
Faulted. -/
theorem exec_fault_cause {i : Instr} {s t : State} {e : ErrRecord} (h : exec i s = .next t) (hs : s.run ≠ .faulted)
    (ht : t.run = .faulted) (he : t.err = some e) : e.cause ∈ raisedBy i := by
  cases exec_cases h with
  | raise _ hraise | sysReadError _ _ _ _ _ hraise =>
    cases he
    exact hraise.cause
  | sysHalt | sysWait => cases ht
  | _ => exact absurd ht hs

/-- No instruction raises a DecodeError at execute: neither of its causes is among those an instruction raises. -/
theorem exec_fault_not_decodeError {i : Instr} {s t : State} {e : ErrRecord} (h : exec i s = .next t)
    (hs : s.run ≠ .faulted) (ht : t.run = .faulted) (he : t.err = some e) : e.kind ≠ .decodeError :=
  (raisedBy_notFetch i e.cause (exec_fault_cause h hs ht he)).2

/-- A running step that ends with a DecodeError: the fetch raises PC_RANGE and the execute phase no DecodeError, so the
decoder raised it. -/
theorem step_decodeError {s t : State} {e : ErrRecord} (hr : s.run = .running) (h : step s = .next t)
    (ht : t.run = .faulted) (he : t.err = some e) (hk : e.kind = .decodeError) :
    ∃ q x, s.fetches q ∧ decode q = .error x ∧ t = (s.latch q).raise x := by
  rcases step_running hr h with ⟨-, rfl⟩ | ⟨q, hq, ⟨x, hd, rfl⟩ | ⟨i, -, hexec⟩⟩
  · cases he
    cases hk
  · exact ⟨q, x, hq, hd, rfl⟩
  · have hlatch : (s.latch q).run ≠ .faulted := by simp [hr]
    exact absurd hk (exec_fault_not_decodeError hexec hlatch ht he)

/-- Settles O18: of the three phases of a step only the decoder raises the kind, and taking its error undoes the fetch's
advance of PC. -/
theorem decodeErrorComesFromDecodeAlone : Obligations.DecodeErrorComesFromDecodeAlone := by
  refine ⟨Cause.kind_eq_decodeError_iff, fun s t e hr h ht he hk => ?_, fun i s t e hr h => ?_⟩
  · obtain ⟨q, x, hq, hd, rfl⟩ := step_decodeError hr h ht he hk
    rw [State.latch_raise] at he ⊢
    cases he
    exact ⟨⟨q, hq, hd⟩, rfl⟩
  · have hs : s.run ≠ .faulted := by simp [hr]
    exact exec_fault_not_decodeError h hs

end Sys2Proof.Machine
end

section
/-! PROOFS. Reset (70_reset_and_hazards R167): where it starts the engine, and that Halted is left by no step. -/

namespace Sys2Proof.Machine

@[simp] theorem State.resetWith_run (p : Params) (image : List Quad) (answers : List Answer) :
    (State.resetWith p image answers).run = .running := rfl

@[simp] theorem State.assertReset_run (s : State) : s.assertReset.run = .running := rfl

/-- The flag is the run state Halted, and a running engine is not in it. -/
theorem State.halted_eq_false_of_running {s : State} (hr : s.run = .running) : s.halted = false :=
  s.halted_eq_false_iff.mpr (by simp [hr])

/-- Settles O1: both resets leave Running, which the flag follows, and Halted is one of the stopped run states. -/
theorem resetStartsRunningWithHaltFlagFalse : Obligations.ResetStartsRunningWithHaltFlagFalse := by
  refine ⟨fun p image answers => ?_, fun s => ?_, fun s t hr => ?_⟩
  · have hrun := State.resetWith_run p image answers
    exact ⟨hrun, State.halted_eq_false_of_running hrun⟩
  · have hrun := s.assertReset_run
    exact ⟨hrun, State.halted_eq_false_of_running hrun⟩
  · exact noStepAfterHaltOrFault s t (.inl hr)

end Sys2Proof.Machine
end

section
/-! PROOFS. The decoder and the encoder (30_encoding R71 to R82): the fields a quadruple is decoded by, the round trip
through the table word, and the order of the checks. -/

namespace Sys2Proof

open Sys2Proof.Machine

/-! ## The used fields -/

/-- A quadruple agrees with the encoding of an instruction in every field that its opcode uses (R73). -/
def usedFieldsAgree (q : Quad) (i : Instr) : Prop :=
  q.opcode = (encode i).opcode ∧
  match i with
  | .rtn => True
  | .sysHalt => q.m = 3
  | .inc _ | .jmp _ => q.m = (encode i).m
  | .neg _ | .odd _ => q.r = (encode i).r
  | .lit _ _ | .jpc _ _ | .sysWrite _ | .sysRead _ => q.r = (encode i).r ∧ q.m = (encode i).m
  | .cal _ _ => q.l = (encode i).l ∧ q.m = (encode i).m
  | _ => q.r = (encode i).r ∧ q.l = (encode i).l ∧ q.m = (encode i).m

/-- Each opcode decodes by its form, which fixes the fields it reads. -/
theorem usedFieldsAgree_of_decode {q : Quad} {i : Instr} (h : decode q = .ok i) : usedFieldsAgree q i := by
  unfold decode at h
  split at h
  case h_2 hop | h_6 hop | h_7 hop =>
    cases h
    simp [usedFieldsAgree, encode]
    omega
  case h_1 hop | h_8 hop | h_10 hop | h_15 hop =>
    obtain ⟨r, hr, rfl⟩ := decodeReg_iff.mp h
    simp [usedFieldsAgree, encode, hr]
    omega
  case h_3 hop | h_4 hop =>
    obtain ⟨r, hr, l, hl, rfl⟩ := decodeAccess_iff.mp h
    simp [usedFieldsAgree, encode, hr, hl]
    omega
  case h_5 hop =>
    obtain ⟨l, hl, rfl⟩ := decodeCall_iff.mp h
    simp [usedFieldsAgree, encode, hl]
    omega
  case h_9 hop =>
    rcases decodeSys_iff.mp h with ⟨hm, r, hr, rfl⟩ | ⟨hm, r, hr, rfl⟩ | ⟨hm, rfl⟩
    · simp [usedFieldsAgree, encode, hr, hm]
      omega
    · simp [usedFieldsAgree, encode, hr, hm]
      omega
    · simp [usedFieldsAgree, encode, hm]
      omega
  case h_23 => cases h
  all_goals
    next hop =>
      obtain ⟨r, hr, a, ha, b, hb, rfl⟩ := decodeBinary_iff.mp h
      simp [usedFieldsAgree, encode, hr, ha, hb]
      omega

/-- The decoder does not look at an unused field (R75). -/
theorem decode_of_usedFieldsAgree {q : Quad} {i : Instr} (h : usedFieldsAgree q i) : decode q = .ok i := by
  obtain ⟨op, r, l, m⟩ := q
  obtain ⟨hop, hused⟩ := h
  cases hop
  cases i with
  | rtn => rfl
  | inc | jmp | sysHalt =>
    cases hused
    rfl
  | neg | odd =>
    cases hused
    exact decodeReg_iff.mpr ⟨_, rfl, rfl⟩
  | lit | jpc | sysWrite | sysRead =>
    obtain ⟨hr, hm⟩ := hused
    cases hr
    cases hm
    exact decodeReg_iff.mpr ⟨_, rfl, rfl⟩
  | cal =>
    obtain ⟨hl, hm⟩ := hused
    cases hl
    cases hm
    exact decodeCall_iff.mpr ⟨_, rfl, rfl⟩
  | lod | sto =>
    obtain ⟨hr, hl, hm⟩ := hused
    cases hr
    cases hl
    cases hm
    exact decodeAccess_iff.mpr ⟨_, rfl, _, rfl, rfl⟩
  | _ =>
    obtain ⟨hr, hl, hm⟩ := hused
    cases hr
    cases hl
    cases hm
    exact decodeBinary_iff.mpr ⟨_, rfl, _, rfl, _, rfl, rfl⟩

/-- Settles O8: the form of an opcode reads exactly the fields in which the quadruple has to agree. -/
theorem decodeReadsExactlyTheUsedFields : Obligations.DecodeReadsExactlyTheUsedFields :=
  fun _ _ => ⟨usedFieldsAgree_of_decode, decode_of_usedFieldsAgree⟩

/-- Settles O10: every operand of a decoded instruction is a field of the quadruple it agrees with. -/
theorem decodedInstructionIsWellFormed : Obligations.DecodedInstructionIsWellFormed := by
  intro b q i hq hd
  obtain ⟨-, -, hl, hm⟩ := hq
  obtain ⟨-, hused⟩ := usedFieldsAgree_of_decode hd
  cases i with
  | lod | sto =>
    obtain ⟨-, el, em⟩ := hused
    rw [el] at hl
    rw [em] at hm
    simpa [Instr.wellFormed] using ⟨hl, hm⟩
  | cal =>
    obtain ⟨el, em⟩ := hused
    rw [el] at hl
    rw [em] at hm
    simpa [Instr.wellFormed] using ⟨hl, hm⟩
  | lit | jpc =>
    rw [hused.2] at hm
    exact hm
  | inc | jmp =>
    rw [hused] at hm
    exact hm
  | _ => rfl

/-! ## Fields that fit words -/

/-- The narrowest admitted width is 8 bits, so every width holds the opcodes and the register indices (00_scope R9). -/
theorem contains_opcode {b : WordBits} (hb : b.admitted = true) {v : Int} (h0 : 0 ≤ v) (h1 : v ≤ 22) :
    b.contains v = true := by
  cases b with
  | unbounded => rfl
  | bounded n =>
    simp only [WordBits.admitted, decide_eq_true_eq] at hb
    have hpow : 2 ^ 7 ≤ 2 ^ (n - 1) := Nat.pow_le_pow_right (by omega) (by omega)
    simp only [WordBits.contains, decide_eq_true_eq]
    omega

theorem contains_regWord {b : WordBits} (hb : b.admitted = true) (r : Reg) : b.contains (regWord r) = true :=
  contains_opcode hb (by simp [regWord]) (by simp only [regWord]; omega)

theorem encode_opcode_range (i : Instr) : 0 ≤ (encode i).opcode ∧ (encode i).opcode ≤ 22 := by
  cases i <;> simp [encode]

/-- Settles O9: an opcode, a register index and an unused field fit every admitted width, and every other field is an
operand of the instruction. -/
theorem encodingOfWellFormedInstructionFitsWords : Obligations.EncodingOfWellFormedInstructionFitsWords := by
  intro b i hb hi
  have hop : b.contains (encode i).opcode = true :=
    contains_opcode hb (encode_opcode_range i).1 (encode_opcode_range i).2
  have hreg := contains_regWord hb
  have hunused : b.contains 0 = true := contains_opcode hb (by decide) (by decide)
  refine ⟨hop, ?_⟩
  cases i with
  | sysWrite r | sysRead r | sysHalt =>
    simp only [encode, hreg, hunused, true_and]
    exact contains_opcode hb (by decide) (by decide)
  | _ => simp_all [Instr.wellFormed, encode]

/-! ## The round trip -/

theorem decode_encode (i : Instr) : decode (encode i) = .ok i := by
  have hagree : usedFieldsAgree (encode i) i := by cases i <;> simp [usedFieldsAgree, encode]
  exact decode_of_usedFieldsAgree hagree

/-- Settles O7: the table word gives back the quadruple of 32-bit words it was made of, which decodes to the
instruction. -/
theorem decodeOfEncodedTableWord : Obligations.DecodeOfEncodedTableWord := by
  intro i hi
  have hfits : (encode i).WellFormed (.bounded 32) :=
    encodingOfWellFormedInstructionFitsWords (.bounded 32) i (by decide) hi
  rw [decodeTableWord, encodeTableWord, quadOfTableWord_tableWordOfQuad hfits, decode_encode]

/-! ## The checks in their order -/

/-- The opcodes of the eleven binary operations (30_encoding R76). -/
def binaryOpcodes : List Int := [11, 12, 13, 14, 16, 17, 18, 19, 20, 21, 22]

theorem decode_of_binaryOpcode {q : Quad} (h : q.opcode ∈ binaryOpcodes) : ∃ f, decode q = decodeBinary q f := by
  simp only [binaryOpcodes, List.mem_cons, List.not_mem_nil, or_false] at h
  rcases h with h | h | h | h | h | h | h | h | h | h | h <;> exact ⟨_, by simp only [decode, h]; rfl⟩

theorem decode_of_accessOpcode {q : Quad} (h : q.opcode = 3 ∨ q.opcode = 4) : ∃ f, decode q = decodeAccess q f := by
  rcases h with h | h <;> exact ⟨_, by simp only [decode, h]; rfl⟩

/-- The first check of these opcodes is that of field r (R80). -/
theorem decode_of_regField_first {q : Quad}
    (h : q.opcode ∈ ([1, 3, 4, 8, 10, 11, 12, 13, 14, 15, 16, 17, 18, 19, 20, 21, 22] : List Int)
      ∨ q.opcode = 9 ∧ (q.m = 1 ∨ q.m = 2)) :
    ∃ k : Reg → Except Raise Instr, decode q = regField q.r >>= k := by
  simp only [List.mem_cons, List.not_mem_nil, or_false] at h
  rcases h with (h | h | h | h | h | h | h | h | h | h | h | h | h | h | h | h | h) | ⟨h, hm | hm⟩
  case inr.inl | inr.inr => exact ⟨_, by simp only [decode, h, decodeSys, hm]; rfl⟩
  all_goals exact ⟨_, by simp only [decode, h]; rfl⟩

theorem decodeSys_error {q : Quad} (h : q.m ≠ 1 ∧ q.m ≠ 2 ∧ q.m ≠ 3) : decodeSys q = .error ⟨.badSys, q.m⟩ := by
  unfold decodeSys
  split
  case h_4 => rfl
  all_goals omega

theorem regField_error_bind {α : Type} {v : Int} (k : Reg → Except Raise α) (h : ¬ (0 ≤ v ∧ v ≤ 6)) :
    (regField v >>= k) = .error ⟨.regIndex, v⟩ := by
  rw [regField_error h]
  rfl

theorem regField_ok_bind {α : Type} {v : Int} (k : Reg → Except Raise α) (h : 0 ≤ v ∧ v ≤ 6) :
    ∃ r, (regField v >>= k) = k r := by
  obtain ⟨r, hr⟩ := regField_total h
  exact ⟨r, by rw [hr]; rfl⟩

theorem levelField_error_bind {α : Type} {v : Int} (k : Nat → Except Raise α) (h : v < 0) :
    (levelField v >>= k) = .error ⟨.negLevel, v⟩ := by
  rw [levelField_error h]
  rfl

/-- Settles O11: each form is a sequence of field checks, so the first field that fails decides. -/
theorem decodeChecksInOrder : Obligations.DecodeChecksInOrder := by
  intro q
  refine ⟨fun hop hm => ?_, fun hop hr => ?_, fun hop hr => ?_, fun hop hr hl => ?_, fun hop hl => ?_⟩
  · simp only [decode, hop]
    exact decodeSys_error hm
  · obtain ⟨k, hk⟩ := decode_of_regField_first hop
    rw [hk, regField_error_bind k hr]
  · obtain ⟨f, hf⟩ := decode_of_binaryOpcode hop
    obtain ⟨r, hrest⟩ := regField_ok_bind _ hr
    rw [hf, decodeBinary, hrest]
    refine ⟨fun hl => regField_error_bind _ hl, fun hl hm => ?_⟩
    obtain ⟨a, hrest⟩ := regField_ok_bind _ hl
    rw [hrest, regField_error_bind _ hm]
  · obtain ⟨f, hf⟩ := decode_of_accessOpcode (by simpa using hop)
    obtain ⟨r, hrest⟩ := regField_ok_bind _ hr
    rw [hf, decodeAccess, hrest, levelField_error_bind _ hl]
  · simp only [decode, hop]
    exact levelField_error_bind _ hl

/-- Settles O12: the decoder computes each sample. -/
theorem sampleQuadruplesDecode : Obligations.SampleQuadruplesDecode := ⟨rfl, rfl, rfl, rfl, rfl, rfl⟩

end Sys2Proof
end

section
/-! PROOFS. What every step keeps: the range of SP (10_state R27), the written registers and cells (10_state R20, R36),
and the invariant. -/

namespace Sys2Proof.Machine

/-! ## SP -/

/-- INC and RTN check the SP they write, and no other instruction writes one. -/
theorem exec_keeps_sp_range {i : Instr} {s t : State} (h : exec i s = .next t)
    (hs : 0 ≤ s.sp ∧ s.sp ≤ s.params.stackCap) : 0 ≤ t.sp ∧ t.sp ≤ t.params.stackCap := by
  cases exec_cases h with
  | rtn dl ra h0 hcap => exact ⟨h0, hcap⟩
  | inc n h0 hcap => exact ⟨h0, hcap⟩
  | _ => exact hs

/-- Settles O5: outside the execute phase nothing writes SP. -/
theorem stepKeepsStackPointerInRange : Obligations.StepKeepsStackPointerInRange := by
  intro s t hs h
  rcases step_cases h with ⟨-, ⟨-, rfl⟩ | ⟨q, -, ⟨e, -, rfl⟩ | ⟨i, -, hexec⟩⟩⟩ |
    ⟨-, ⟨-, rfl⟩ | ⟨a, rest, q, r, -, -, -, hexec⟩⟩
  · exact hs
  · exact hs
  · exact exec_keeps_sp_range hexec hs
  · exact hs
  · exact exec_keeps_sp_range hexec hs

/-! ## Written registers and cells -/

/-- Every register and every cell of `s` that holds a word holds one in `t`. -/
def KeepsWritten (s t : State) : Prop :=
  (∀ r, (s.rf.get r).isSome = true → (t.rf.get r).isSome = true) ∧
  ∀ a, (s.cell a).isSome = true → (t.cell a).isSome = true

theorem KeepsWritten.refl (s : State) : KeepsWritten s s := ⟨fun _ => id, fun _ => id⟩

theorem KeepsWritten.trans {s t u : State} (h : KeepsWritten s t) (h' : KeepsWritten t u) : KeepsWritten s u :=
  ⟨fun r hr => h'.1 r (h.1 r hr), fun a ha => h'.2 a (h.2 a ha)⟩

theorem keepsWritten_writeReg (s : State) (r : Reg) (v : Int) : KeepsWritten s (s.writeReg r v) := by
  refine ⟨fun q hq => ?_, fun _ => id⟩
  rw [State.get_writeReg]
  split
  · rfl
  · exact hq

theorem keepsWritten_writeCell (s : State) (a : Nat) (v : Int) : KeepsWritten s (s.writeCell a v) := by
  refine ⟨fun _ => id, fun b hb => ?_⟩
  rw [State.cell_writeCell]
  split
  · rfl
  · exact hb

/-- An instruction changes registers and cells only by writing words to them. -/
theorem exec_keepsWritten {i : Instr} {s t : State} (h : exec i s = .next t) : KeepsWritten s t := by
  cases exec_cases h with
  | lit | lod | unary | binary => exact keepsWritten_writeReg s _ _
  | sysRead => exact keepsWritten_writeReg (s.setAnswers _) _ _
  | sto => exact keepsWritten_writeCell s _ _
  | cal =>
    exact (keepsWritten_writeCell s _ _).trans ((keepsWritten_writeCell _ _ _).trans (keepsWritten_writeCell _ _ _))
  | _ => exact KeepsWritten.refl s

/-- Settles O30: outside the execute phase no register and no cell changes. -/
theorem writtenNeverBecomesEmpty : Obligations.WrittenNeverBecomesEmpty := by
  intro s t h
  rcases step_cases h with ⟨-, ⟨-, rfl⟩ | ⟨q, -, ⟨e, -, rfl⟩ | ⟨i, -, hexec⟩⟩⟩ |
    ⟨-, ⟨-, rfl⟩ | ⟨a, rest, q, r, -, -, -, hexec⟩⟩
  · exact KeepsWritten.refl s
  · exact KeepsWritten.refl s
  · exact (show KeepsWritten s (s.latch q) from KeepsWritten.refl s).trans (exec_keepsWritten hexec)
  · exact KeepsWritten.refl _
  · exact (show KeepsWritten s s.resumeRead from KeepsWritten.refl s).trans (exec_keepsWritten hexec)

/-! ## The invariant -/

theorem State.Inv.takeError {s : State} (h : s.Inv) {idx : Int} (hidx : s.isWord idx) (insn : Option Quad) (e : Raise) :
    (s.takeError idx insn e).Inv :=
  { h with
    pcWord := hidx
    errRun := by simp
    waiting := by intro hw; simp at hw }

/-- A read that waits gives PC the index it was fetched from. -/
theorem State.Dispatched.wait {s : State} (h : s.Dispatched) {q : Quad} {r : Reg}
    (hq : 0 ≤ s.pc - 1 ∧ s.imem[(s.pc - 1).toNat]? = some q) (hir : s.ir = some q) (hd : decode q = .ok (.sysRead r)) :
    s.wait.Inv :=
  { h.toInv with
    pcWord := h.indexWord
    errRun := by have hnone := h.errRun; simp [h.running] at hnone; simp [hnone]
    waiting := fun _ => ⟨q, r, hq, hir, hd⟩ }

theorem State.Dispatched.setAnswers {s : State} (h : s.Dispatched) (rest : List Answer) :
    (s.setAnswers rest).Dispatched :=
  ⟨h.toInv.setAnswers rest, h.running, h.indexWord⟩

/-- The state a read resumes from is the one its fetch led to. -/
theorem State.Inv.resumeRead {s : State} (h : s.Inv) (hr : s.run = .waitInput) : s.resumeRead.Dispatched := by
  obtain ⟨q, r, hq, hir, hd⟩ := h.waiting hr
  have hlen := (List.getElem?_eq_some_iff.mp hq.2).1
  have hprog := h.progLen
  exact
    { h with
      pcWord := contains_between h.params.2.2.2 (show -1 ≤ s.pc + 1 by have := hq.1; omega)
        (show s.pc + 1 ≤ _ by have := hq.1; omega)
      errRun := by have hnone := h.errRun; simp [hr] at hnone; simp [hnone]
      waiting := by intro hw; simp at hw
      running := rfl
      indexWord := by
        have hback : s.resumeRead.pc - 1 = s.pc := by simp
        rw [hback]
        exact h.pcWord }

theorem checkAnswer_word {s : State} {a : Answer} {v : Int} (h : s.checkAnswer a = .ok v) : s.isWord v := by
  unfold State.checkAnswer at h
  split at h
  · cases h
  · split at h
    · next hword =>
      cases h
      exact hword
    · cases h

/-- A read that has an answer writes a word or takes an error. -/
theorem State.Dispatched.sysRead {s t : State} (h : s.Dispatched) {a : Answer} {rest : List Answer} {r : Reg}
    (ha : s.answers = a :: rest) (ht : exec (.sysRead r) s = .next t) : t.Inv := by
  simp only [exec, execSysRead, ha] at ht
  refine (h.setAnswers rest).finish (fun u hu => ?_) ht
  obtain ⟨v, hv, hu⟩ := Except.bindOk hu
  cases hu
  exact (h.setAnswers rest).toInv.writeReg r (checkAnswer_word hv)

/-- RTN writes words that cells held, and an SP it checked. -/
theorem State.Dispatched.rtn {s t : State} (h : s.Dispatched) (ht : exec .rtn s = .next t) : t.Inv := by
  refine h.finish (fun u hu => ?_) ht
  obtain ⟨sp, hsp, hu⟩ := Except.bindOk hu
  obtain ⟨dl, hdl, hu⟩ := Except.bindOk hu
  obtain ⟨ra, hra, hu⟩ := Except.bindOk hu
  cases hu
  obtain ⟨rfl, hrange⟩ := State.checkSp_ok hsp
  have hdlWord := h.toInv.cell_word (State.readCell_ok hdl).2
  have hraWord := h.toInv.cell_word (State.readCell_ok hra).2
  exact ((h.toInv.setSp hrange).setBp hdlWord).setPc h.running hraWord

theorem State.Dispatched.lod {s t : State} (h : s.Dispatched) {r : Reg} {l : Nat} {m : Int}
    (ht : exec (.lod r l m) s = .next t) : t.Inv := by
  refine h.finish (fun u hu => ?_) ht
  obtain ⟨ea, -, hu⟩ := Except.bindOk hu
  obtain ⟨v, hv, hu⟩ := Except.bindOk hu
  cases hu
  exact h.toInv.writeReg r (h.toInv.cell_word (State.readCell_ok hv).2)

theorem State.Dispatched.sto {s t : State} (h : s.Dispatched) {r : Reg} {l : Nat} {m : Int}
    (ht : exec (.sto r l m) s = .next t) : t.Inv := by
  refine h.finish (fun u hu => ?_) ht
  obtain ⟨ea, -, hu⟩ := Except.bindOk hu
  obtain ⟨_, -, hu⟩ := Except.bindOk hu
  obtain ⟨v, hv, hu⟩ := Except.bindOk hu
  obtain ⟨hin, rfl⟩ := State.memWrite_ok hu
  exact h.toInv.writeCell hin (h.toInv.readReg_word hv)

/-- The three control words of CAL are words, and its new BP lies below SP. -/
theorem State.Dispatched.cal {s t : State} (h : s.Dispatched) {l : Nat} {m : Int} (hm : s.isWord m)
    (ht : exec (.cal l m) s = .next t) : t.Inv := by
  refine h.finish (fun u hu => ?_) ht
  obtain ⟨sl, hsl, hu⟩ := Except.bindOk hu
  obtain ⟨s1, h1, hu⟩ := Except.bindOk hu
  obtain ⟨s2, h2, hu⟩ := Except.bindOk hu
  obtain ⟨s3, h3, hu⟩ := Except.bindOk hu
  cases hu
  obtain ⟨hin1, rfl⟩ := State.memWrite_ok h1
  obtain ⟨hin2, rfl⟩ := State.memWrite_ok h2
  obtain ⟨hin3, rfl⟩ := State.memWrite_ok h3
  have hslWord := h.toInv.resolve_word l s.bp sl h.bpWord hsl
  have hbpWord : s.isWord (s.sp - 1) := h.toInv.pointer_word (by have := hin1.1; omega) (by have := hin1.2; omega)
  have hcells := ((h.toInv.writeCell hin1 hslWord).writeCell hin2 h.bpWord).writeCell hin3 h.pcWord
  exact (hcells.setBp hbpWord).setPc h.running hm

theorem State.Dispatched.inc {s t : State} (h : s.Dispatched) {n : Int} (ht : exec (.inc n) s = .next t) : t.Inv := by
  refine h.finish (fun u hu => ?_) ht
  obtain ⟨sp, hsp, hu⟩ := Except.bindOk hu
  cases hu
  obtain ⟨rfl, hrange⟩ := State.checkSp_ok hsp
  exact h.toInv.setSp hrange

theorem State.Dispatched.jpc {s t : State} (h : s.Dispatched) {r : Reg} {m : Int} (hm : s.isWord m)
    (ht : exec (.jpc r m) s = .next t) : t.Inv := by
  refine h.finish (fun u hu => ?_) ht
  obtain ⟨v, -, hu⟩ := Except.bindOk hu
  cases hu
  split
  · exact h.toInv.setPc h.running hm
  · exact h.toInv

theorem State.Dispatched.sysWrite {s t : State} (h : s.Dispatched) {r : Reg} (ht : exec (.sysWrite r) s = .next t) :
    t.Inv := by
  refine h.finish (fun u hu => ?_) ht
  obtain ⟨v, hv, hu⟩ := Except.bindOk hu
  cases hu
  exact h.toInv.emit r (h.toInv.readReg_word hv)

/-- DIV writes a checked quotient. -/
theorem State.Dispatched.div {s t : State} (h : s.Dispatched) {r a b : Reg} (ht : exec (.div r a b) s = .next t) :
    t.Inv := by
  refine h.binary (fun x y v _ _ hv => ?_) ht
  split at hv
  · cases hv
  · obtain ⟨rfl, hword⟩ := State.checkWord_ok hv
    exact hword

/-- MOD writes a remainder, which is smaller than the divisor. -/
theorem State.Dispatched.mod {s t : State} (h : s.Dispatched) {r a b : Reg} (ht : exec (.mod r a b) s = .next t) :
    t.Inv := by
  refine h.binary (fun x y v _ hy hv => ?_) ht
  split at hv
  · cases hv
  · next hne =>
    split at hv
    · cases hv
    · cases hv
      exact contains_tmod hy hne

/-- A fetched instruction that is no SYS read keeps the invariant. -/
theorem State.Dispatched.exec {s t : State} (h : s.Dispatched) {i : Instr}
    (hi : i.wellFormed s.params.wordBits = true) (hread : ∀ r, i ≠ .sysRead r) (ht : exec i s = .next t) :
    t.Inv := by
  have hadmitted := h.params.1
  cases i with
  | lit r v =>
    cases ht
    exact h.toInv.writeReg r hi
  | rtn => exact h.rtn ht
  | lod r l m => exact h.lod ht
  | sto r l m => exact h.sto ht
  | cal l m =>
    obtain ⟨-, hm⟩ := Bool.and_eq_true_iff.mp hi
    exact h.cal hm ht
  | inc n => exact h.inc ht
  | jmp m =>
    cases ht
    exact h.toInv.setPc h.running hi
  | jpc r m => exact h.jpc hi ht
  | sysWrite r => exact h.sysWrite ht
  | sysRead r => exact absurd rfl (hread r)
  | sysHalt =>
    cases ht
    exact h.toInv.halt h.running
  | neg r => exact h.unary (fun x v _ hv => by obtain ⟨rfl, hword⟩ := State.checkWord_ok hv; exact hword) ht
  | odd r => exact h.unary (fun x v _ hv => by cases hv; exact contains_tmod_two hadmitted x) ht
  | add r a b | sub r a b | mul r a b =>
    exact h.binary (fun x y v _ _ hv => by obtain ⟨rfl, hword⟩ := State.checkWord_ok hv; exact hword) ht
  | div r a b => exact h.div ht
  | mod r a b => exact h.mod ht
  | eql r a b | neq r a b | lss r a b | leq r a b | gtr r a b | geq r a b =>
    exact h.binary (fun x y v _ _ hv => by cases hv; exact contains_truth hadmitted _) ht

/-- A step that executes what it fetched keeps the invariant: the program holds words only, so the instruction is
well-formed, and a read that waits stands at its own index. -/
theorem State.Inv.execute {s t : State} (h : s.Inv) (hr : s.run = .running) {q : Quad} {i : Instr} (hq : s.fetches q)
    (hd : decode q = .ok i) (ht : exec i (s.latch q) = .next t) : t.Inv := by
  have hdisp := h.latch hr hq
  have hwf : i.wellFormed s.params.wordBits = true :=
    decodedInstructionIsWellFormed _ q i (h.image q (List.mem_of_getElem? hq.2)) hd
  by_cases hread : ∃ r, i = .sysRead r
  · obtain ⟨r, rfl⟩ := hread
    cases ha : s.answers with
    | nil =>
      simp only [Machine.exec, execSysRead, State.latch_answers, ha] at ht
      cases ht
      exact hdisp.wait (by simpa using hq) rfl hd
    | cons a rest => exact hdisp.sysRead ha ht
  · exact hdisp.exec hwf (fun r hi => hread ⟨r, hi⟩) ht

/-- Settles O4: an error records an index that is PC, and every other outcome is that of an instruction. -/
theorem stepKeepsInvariant : Obligations.StepKeepsInvariant := by
  intro s t hs h
  rcases step_cases h with ⟨hr, ⟨-, rfl⟩ | ⟨q, hq, ⟨e, -, rfl⟩ | ⟨i, hd, hexec⟩⟩⟩ |
    ⟨hr, ⟨-, rfl⟩ | ⟨a, rest, q, r, ha, -, -, hexec⟩⟩
  · exact hs.takeError hs.pcWord _ _
  · exact (hs.latch hr hq).toInv.raise (hs.latch hr hq).indexWord e
  · exact hs.execute hr hq hd hexec
  · exact hs
  · exact (hs.resumeRead hr).sysRead ha hexec

end Sys2Proof.Machine
end

section
/-! PROOFS. Reset and launch (70_reset_and_hazards R163, R168): the reset table, the invariant at reset, and the images a
launch admits. -/

namespace Sys2Proof.Machine

@[simp] theorem State.resetWith_get (p : Params) (image : List Quad) (answers : List Answer) (r : Reg) :
    (State.resetWith p image answers).rf.get r = p.initial := by
  simp [State.resetWith, Vector.get_eq_getElem]

/-- Nothing is written yet, so every cell holds what reset left there. -/
@[simp] theorem State.resetWith_cell (p : Params) (image : List Quad) (answers : List Answer) (a : Nat) :
    (State.resetWith p image answers).cell a = p.initial := rfl

theorem Params.initial_of_empty {p : Params} (h : p.initContent = .empty) : p.initial = none := by
  simp [Params.initial, h]

theorem Params.initial_of_zero {p : Params} (h : p.initContent = .zero) : p.initial = some 0 := by
  simp [Params.initial, h]

/-- Settles O2: INIT_CONTENT is what every register and cell holds, and the other elements are fixed. -/
theorem resetGivesEveryElementItsResetValue : Obligations.ResetGivesEveryElementItsResetValue := by
  refine ⟨fun _ => rfl, ?_⟩
  rintro p image answers s rfl
  refine ⟨rfl, rfl, rfl, rfl, rfl, rfl, rfl, rfl, rfl, rfl, rfl, fun hempty => ?_, fun hzero => ?_⟩
  · simp [Params.initial_of_empty hempty]
  · simp [Params.initial_of_zero hzero]

theorem Params.initial_word {p : Params} {v : Int} (h : p.initial = some v) : p.wordBits.contains v = true := by
  unfold Params.initial at h
  split at h
  · cases h
  · cases h
    exact contains_zero

/-- The reset state of admitted parameters and a fitting program of words. -/
theorem State.inv_resetWith {p : Params} {image : List Quad} (answers : List Answer) (hp : p.wf)
    (hlen : image.length ≤ p.codeCap) (himage : ∀ q ∈ image, q.WellFormed p.wordBits) :
    (State.resetWith p image answers).Inv where
  params := hp
  progLen := hlen
  image := himage
  regs r v hv := by
    rw [State.resetWith_get] at hv
    exact Params.initial_word hv
  filled hzero r := by
    rw [State.resetWith_get, Params.initial_of_zero (p := p) hzero]
    rfl
  canonical := State.reset_canonical p image answers
  cells := nofun
  pcWord := contains_zero
  bpWord := contains_between hp.2.2.1 (show -1 ≤ (p.stackCap : Int) - 1 by omega)
    (show (p.stackCap : Int) - 1 ≤ p.stackCap by omega)
  spRange := ⟨Int.natCast_nonneg _, le_rfl⟩
  errRun := by simp [State.resetWith]
  waiting := nofun
  events := nofun

/-- Settles O3: the parameters of `State.reset` are admitted, and its empty program fits. -/
theorem resetMeetsInvariant : Obligations.ResetMeetsInvariant :=
  ⟨State.inv_resetWith [] (by decide) (Nat.zero_le _) nofun,
    fun _ _ answers hp hlen himage => State.inv_resetWith answers hp hlen himage⟩

theorem State.loadImage_eq_some_iff {s t : State} {image : List Quad} :
    s.loadImage image = some t ↔
      (image.length ≤ s.params.codeCap ∧ ∀ q ∈ image, q.WellFormed s.params.wordBits) ∧
        { s with imem := image } = t := by
  simp [State.loadImage]

/-- Settles O6: a launch checks the parameters, then the image, and the reset of a state with the image loaded is the
reset state. -/
theorem launchAdmitsExactlyFittingPrograms : Obligations.LaunchAdmitsExactlyFittingPrograms := by
  intro p image answers s
  by_cases hp : p.wf
  · simp only [launch, if_pos hp, Option.map_eq_some_iff, State.loadImage_eq_some_iff]
    constructor
    · rintro ⟨u, ⟨⟨hlen, himage⟩, rfl⟩, rfl⟩
      exact ⟨hp, hlen, himage, rfl⟩
    · rintro ⟨-, hlen, himage, rfl⟩
      exact ⟨_, ⟨⟨hlen, himage⟩, rfl⟩, rfl⟩
  · simp only [launch, if_neg hp]
    exact ⟨nofun, fun h => absurd h.1 hp⟩

end Sys2Proof.Machine
end

section
/-! PROOFS. The step (30_encoding section 5): the execution of what it fetched, and the errors it takes with the state as it
was (60_exceptions section 2). -/

namespace Sys2Proof.Machine

/-- Settles O13: the state after fetch differs in IR and PC alone. -/
theorem stepRunsTheDecodedInstruction : Obligations.StepRunsTheDecodedInstruction :=
  fun _ _ _ => step_of_decode_ok

/-- Settles O14: the error is taken at PC itself, so PC stays. -/
theorem fetchOutsideTheProgramFaults : Obligations.FetchOutsideTheProgramFaults :=
  fun _ hr hp => step_of_pc_outside hr hp

/-- Settles O16: taking the error undoes the fetch's advance of PC. -/
theorem decodeErrorAbortsTheStep : Obligations.DecodeErrorAbortsTheStep := by
  intro s q e hr hq hd
  have hstep := step_of_decode_error hr hq hd
  rw [State.latch_raise] at hstep
  exact ⟨_, hstep, rfl⟩

/-! ## Errors at execute -/

/-- An instruction that ends Faulted took an error of its own, and wrote nothing but the answers left. -/
theorem exec_faulted {i : Instr} {s t : State} (h : exec i s = .next t) (hs : s.run ≠ .faulted)
    (ht : t.run = .faulted) : ∃ e, ExecError s i e ∧ t = (s.setAnswers t.answers).raise e := by
  cases exec_cases h with
  | raise _ he => exact ⟨_, he, rfl⟩
  | sysReadError _ _ _ _ _ he => exact ⟨_, he, rfl⟩
  | sysHalt | sysWait => cases ht
  | _ => exact absurd ht hs

/-- The error record is written only by taking an error. -/
theorem exec_keeps_err {i : Instr} {s t : State} (h : exec i s = .next t) (ht : t.run ≠ .faulted) : t.err = s.err := by
  cases exec_cases h with
  | raise | sysReadError => exact absurd rfl ht
  | _ => rfl

/-- Under ZERO a state of the invariant has no empty register and no empty cell. -/
theorem State.Inv.initContent_of_empty {s : State} (hs : s.Inv)
    (hempty : (∃ r, s.rf.get r = none) ∨ ∃ a, s.cell a = none) : s.params.initContent = .empty := by
  cases hz : s.params.initContent with
  | empty => rfl
  | zero =>
    rcases hempty with ⟨r, hr⟩ | ⟨a, ha⟩
    · have hfilled := hs.filled hz r
      simp [hr] at hfilled
    · exact absurd ha (cell_zero hz a)

theorem divZero_raisedBy {i : Instr} (h : .divZero ∈ raisedBy i) : ∃ r a b, i = .div r a b := by
  cases i <;> simp_all [raisedBy]

theorem modZero_raisedBy {i : Instr} (h : .modZero ∈ raisedBy i) : ∃ r a b, i = .mod r a b := by
  cases i <;> simp_all [raisedBy]

theorem overflow_raisedBy {i : Instr} (h : .overflow ∈ raisedBy i) :
    (∃ r, i = .neg r) ∨ ∃ r a b, i ∈ [Instr.add r a b, .sub r a b, .mul r a b, .div r a b, .mod r a b] := by
  cases i with
  | neg r => exact .inl ⟨r, rfl⟩
  | add r a b | sub r a b | mul r a b | div r a b | mod r a b => exact .inr ⟨r, a, b, by simp⟩
  | _ => simp [raisedBy] at h

theorem addressingError_raisedBy {i : Instr} {c : Cause} (h : c ∈ raisedBy i) (hk : c.kind = .addressingError) :
    i = .rtn ∨ (∃ n, i = .inc n) ∨ (∃ l m, i = .cal l m) ∨ (∃ r l m, i = .lod r l m) ∨ ∃ r l m, i = .sto r l m := by
  cases i with
  | rtn | inc | cal | lod | sto => simp
  | _ => cases c <;> simp [raisedBy, Cause.kind] at h hk

theorem ioError_raisedBy {i : Instr} {c : Cause} (h : c ∈ raisedBy i) (hk : c.kind = .ioError) :
    ∃ r, i = .sysRead r := by
  cases i with
  | sysRead r => exact ⟨r, rfl⟩
  | _ => cases c <;> simp [raisedBy, Cause.kind] at h hk

theorem unwrittenReadError_raisedBy {i : Instr} {c : Cause} (h : c ∈ raisedBy i) (hk : c.kind = .unwrittenReadError) :
    (∀ r v, i ≠ .lit r v) ∧ (∀ n, i ≠ .inc n) ∧ (∀ m, i ≠ .jmp m) ∧ (∀ r, i ≠ .sysRead r) ∧ i ≠ .sysHalt := by
  cases i with
  | lit | jmp | sysHalt => cases h
  | inc | sysRead => cases c <;> simp [raisedBy, Cause.kind] at h hk
  | _ => simp

/-- Settles O19: the record is of an error of the instruction, and `raisedBy` lists the causes of each. -/
theorem errorKindsComeFromTheirInstructions : Obligations.ErrorKindsComeFromTheirInstructions := by
  intro i s t e hs hr h ht he
  obtain ⟨x, hx, htx⟩ := exec_faulted h (by simp [hr]) ht
  rw [htx] at he
  cases he
  have hcause := hx.cause
  refine ⟨fun hc => ?_, fun hc => ?_, fun hc => ?_, addressingError_raisedBy hcause, ioError_raisedBy hcause,
    fun hk => ⟨hs.initContent_of_empty (hx.unwritten hk), unwrittenReadError_raisedBy hcause hk⟩⟩
  · exact divZero_raisedBy (hc ▸ hcause)
  · exact modZero_raisedBy (hc ▸ hcause)
  · exact overflow_raisedBy (hc ▸ hcause)

/-! ## Steps that fault -/

theorem State.Inv.err_eq_none {s : State} (hs : s.Inv) (hr : s.run ≠ .faulted) : s.err = none := by
  have hiff := hs.errRun
  simpa [hr] using hiff

/-- What a step has changed that ends Faulted (D19), whatever IR and the answers left are (log entries 6 and 7), and what
its record tells. -/
structure PreciseFault (s t : State) : Prop where
  unchanged : t = { s with ir := t.ir, answers := t.answers, run := .faulted, err := t.err }
  recorded : ∃ e, t.err = some e ∧ e.pc = s.pc
    ∧ (e.cause = .pcRange → e.insn = none ∧ e.info = s.pc)
    ∧ (e.cause ≠ .pcRange → ∃ q, e.insn = some q ∧ s.fetches q)

theorem preciseFault_fetch (s : State) : PreciseFault s (s.takeError s.pc none ⟨.pcRange, s.pc⟩) :=
  ⟨rfl, _, rfl, rfl, fun _ => ⟨rfl, rfl⟩, fun h => absurd rfl h⟩

/-- An error taken when PC has been advanced past the quadruple that IR holds. -/
theorem preciseFault_raise {s : State} {q : Quad} (answers : List Answer) (run : RunState) {e : Raise}
    (hq : s.fetches q) (he : e.cause ≠ .pcRange) :
    PreciseFault s (({ s with ir := some q, pc := s.pc + 1, answers := answers, run := run } : State).raise e) :=
  ⟨by simp [State.raise, State.takeError], _, rfl, by simp, fun h => absurd h he, fun _ => ⟨q, rfl, hq⟩⟩

theorem preciseFault_exec {s u t : State} {q : Quad} {i : Instr} (hq : s.fetches q)
    (hu : u = { s with ir := some q, pc := s.pc + 1, run := .running }) (h : exec i u = .next t)
    (ht : t.run = .faulted) : PreciseFault s t := by
  obtain ⟨e, he, heq⟩ := exec_faulted h (by simp [hu]) ht
  have hprecise := preciseFault_raise t.answers .running hq (raisedBy_notFetch i _ he.cause).1
  rw [heq]
  subst hu
  exact hprecise

/-- An error is taken at the fetch, at decode or at execute, and each time PC is put back to the index. -/
theorem step_preciseFault {s t : State} (hs : s.Inv) (h : step s = .next t) (ht : t.run = .faulted) :
    PreciseFault s t := by
  rcases step_cases h with ⟨hr, ⟨-, rfl⟩ | ⟨q, hq, ⟨e, hd, rfl⟩ | ⟨i, -, hexec⟩⟩⟩ |
    ⟨hr, ⟨-, rfl⟩ | ⟨a, rest, q, r, -, hir, -, hexec⟩⟩
  · exact preciseFault_fetch s
  · exact preciseFault_raise s.answers s.run hq (decode_errors q e hd).1
  · exact preciseFault_exec hq (by simp [State.latch, hr]) hexec ht
  · simp [hr] at ht
  · obtain ⟨q', r', hq, hir', -⟩ := hs.waiting hr
    obtain rfl : q' = q := by simpa [hir'] using hir
    exact preciseFault_exec hq (by simp [State.resumeRead, hir]) hexec ht

theorem step_keeps_err {s t : State} (h : step s = .next t) (ht : t.run ≠ .faulted) : t.err = s.err := by
  rcases step_cases h with ⟨-, ⟨-, rfl⟩ | ⟨q, -, ⟨e, -, rfl⟩ | ⟨i, -, hexec⟩⟩⟩ |
    ⟨-, ⟨-, rfl⟩ | ⟨a, rest, q, r, -, -, -, hexec⟩⟩
  · exact absurd rfl ht
  · exact absurd rfl ht
  · exact (exec_keeps_err hexec ht).trans (s.latch_err q)
  · rfl
  · exact (exec_keeps_err hexec ht).trans s.resumeRead_err

/-- Settles O17: a step that faults takes one error with the state as it was, and no other step writes the record. -/
theorem faultIsPrecise : Obligations.FaultIsPrecise := by
  refine fun s t hs h => ⟨fun ht => ?_, step_keeps_err h⟩
  obtain ⟨hunchanged, hrecorded⟩ := step_preciseFault hs h ht
  exact ⟨hunchanged, by simp [State.halted_eq_false_iff, ht], by simp [stepObservation, h, ht], hrecorded⟩

/-- An unwritten read at execute finds an empty register or cell in the state after fetch, which has those of `s`. -/
theorem exec_not_unwrittenReadError {s u t : State} {i : Instr} {e : ErrRecord} (hs : s.Inv)
    (hz : s.params.initContent = .zero) (hrf : u.rf = s.rf) (hcell : u.cell = s.cell) (hu : u.run = .running)
    (herr : u.err = none) (h : exec i u = .next t) (he : t.err = some e) : e.kind ≠ .unwrittenReadError := by
  by_cases ht : t.run = .faulted
  · obtain ⟨x, hx, htx⟩ := exec_faulted h (by simp [hu]) ht
    rw [htx] at he
    cases he
    intro hk
    have hempty := hx.unwritten hk
    rw [hrf, hcell] at hempty
    simp [hs.initContent_of_empty hempty] at hz
  · rw [exec_keeps_err h ht, herr] at he
    cases he

/-- Settles O31: the fetch and the decoder raise no unwritten read, and under ZERO no register and no cell is empty. -/
theorem noUnwrittenReadErrorUnderZero : Obligations.NoUnwrittenReadErrorUnderZero := by
  intro s t e hs hz h he hrun
  have hnone := hs.err_eq_none hrun
  rcases step_cases h with ⟨hr, ⟨-, rfl⟩ | ⟨q, -, ⟨x, hd, rfl⟩ | ⟨i, -, hexec⟩⟩⟩ |
    ⟨hr, ⟨-, rfl⟩ | ⟨a, rest, q, r, -, -, -, hexec⟩⟩
  · cases he
    exact nofun
  · cases he
    exact (decode_errors q x hd).2
  · exact exec_not_unwrittenReadError (u := s.latch q) hs hz rfl rfl hr hnone hexec he
  · simp [hnone] at he
  · exact exec_not_unwrittenReadError (u := s.resumeRead) hs hz rfl rfl rfl hnone hexec he

end Sys2Proof.Machine
end

section
/-! PROOFS. SYS read (44_system R114): what it does by its answers, and the wait for one (30_encoding R92). -/

namespace Sys2Proof.Machine

/-! ## What SYS read does -/

theorem exec_sysRead_of_no_answer {s : State} (r : Reg) (ha : s.answers = []) :
    exec (.sysRead r) s = .next s.wait := by
  simp only [exec, execSysRead, ha]

theorem exec_sysRead_of_answer {s : State} {a : Answer} {rest : List Answer} (r : Reg) (ha : s.answers = a :: rest) :
    exec (.sysRead r) s =
      (s.setAnswers rest).finish (s.checkAnswer a >>= fun v => .ok ((s.setAnswers rest).writeReg r v)) := by
  simp only [exec, execSysRead, ha]
  rfl

theorem checkAnswer_of_word {s : State} {v : Int} (h : s.isWord v) : s.checkAnswer (.value v) = .ok v := if_pos h

theorem checkAnswer_of_not_word {s : State} {v : Int} (h : ¬ s.isWord v) :
    s.checkAnswer (.value v) = .error ⟨.inputRange, v⟩ := if_neg h

/-- Settles O49: with no answer the read waits, and the check of the first answer decides otherwise. -/
theorem sysReadTakesOneAnswer : Obligations.SysReadTakesOneAnswer := by
  refine fun s r => ⟨exec_sysRead_of_no_answer r, fun rest => ⟨fun v ha hv => ?_, fun v ha hv => ?_, fun ha => ?_⟩⟩
  · rw [exec_sysRead_of_answer r ha, checkAnswer_of_word hv]
    rfl
  · rw [exec_sysRead_of_answer r ha, checkAnswer_of_not_word hv]
    rfl
  · rw [exec_sysRead_of_answer r ha]
    rfl

/-! ## The wait -/

/-- SYS read is the one instruction that waits, and it waits for an answer. -/
theorem exec_run_waitInput_iff {i : Instr} {s t : State} (h : exec i s = .next t) (hs : s.run ≠ .waitInput) :
    t.run = .waitInput ↔ s.answers = [] ∧ ∃ r, i = .sysRead r := by
  cases exec_cases h with
  | unary r v hi => rcases hi with rfl | rfl <;> simp [hs]
  | binary r a b v hi =>
    have hne : ∀ q, i ≠ .sysRead q := by rintro q rfl; simp at hi
    simp [hs, hne]
  | raise hi _ => simp [hi]
  | sysWait r ha => simp [ha]
  | sysRead r a rest v ha => simp [hs, ha]
  | sysReadError r a rest e ha => simp [ha]
  | _ => simp [hs]

/-- Settles O22: the engine goes on whatever it fetches, and of the phases only the execution can wait. -/
theorem runningEngineAlwaysSteps : Obligations.RunningEngineAlwaysSteps := by
  intro s hr
  obtain ⟨t, h⟩ := step_total_of_running hr
  refine ⟨t, h, ?_⟩
  rcases step_running hr h with ⟨hp, rfl⟩ | ⟨q, hq, hstep⟩
  · have hnone : ¬ ∃ q r, s.fetches q ∧ decode q = .ok (.sysRead r) := by
      rintro ⟨q, r, hq, -⟩
      have hfail := fetch_error_iff.mpr ⟨hp, rfl⟩
      rw [fetch_iff.mpr hq] at hfail
      cases hfail
    rw [iff_false_intro hnone]
    simp
  · have hfetched : (∃ q' r, s.fetches q' ∧ decode q' = .ok (.sysRead r)) ↔ ∃ r, decode q = .ok (.sysRead r) :=
      ⟨fun ⟨q', r, hq', hd'⟩ => ⟨r, fetches_unique hq hq' ▸ hd'⟩, fun ⟨r, hd⟩ => ⟨q, r, hq, hd⟩⟩
    rw [hfetched]
    rcases hstep with ⟨e, hd, rfl⟩ | ⟨i, hd, hexec⟩
    · simp [hd]
    · simp [hd, exec_run_waitInput_iff hexec (by simp [hr])]

/-- Settles O23: the wait puts PC back to the read's index, and resuming advances it again. -/
theorem sysReadWaitsHoldsAndResumes : Obligations.SysReadWaitsHoldsAndResumes := by
  intro s q r hq hd
  refine ⟨fun hr ha => ?_, fun hr ha => ?_, fun a rest hr hir ha => ?_⟩
  · rw [step_of_decode_ok hr hq hd, exec_sysRead_of_no_answer (s := s.latch q) r ha]
    simp [State.wait, State.latch]
  · rw [step_of_waitInput hr, resume, ha]
  · have hlatch : s.resumeRead = ({ s with run := .running } : State).latch q := by
      simp [State.resumeRead, State.latch, hir]
    rw [step_resume hr hir hd ha, hlatch, step_of_decode_ok (s := { s with run := .running }) rfl hq hd]

end Sys2Proof.Machine
end

section
/-! PROOFS. The observation port (10_state R44) and SYS halt (44_system R115). -/

namespace Sys2Proof.Machine

theorem stepObservation_of_committed {s t : State} (h : step s = .next t) (ht : t.run = .running ∨ t.run = .halted) :
    stepObservation s = t.observe := by
  simp only [stepObservation, h, if_pos ht]

theorem stepObservation_of_uncommitted {s t : State} (h : step s = .next t)
    (ht : ¬ (t.run = .running ∨ t.run = .halted)) : stepObservation s = none := by
  simp only [stepObservation, h, if_neg ht]

/-- A committed step leaves in IR the quadruple it executed. -/
theorem step_committed_ir {s t : State} {q : Quad}
    (hq : s.run = .running ∧ s.fetches q ∨ s.run = .waitInput ∧ s.ir = some q) (h : step s = .next t)
    (ht : t.run = .running ∨ t.run = .halted) : t.ir = some q := by
  rcases step_cases h with ⟨hr, ⟨-, rfl⟩ | ⟨q', hq', ⟨e, -, rfl⟩ | ⟨i, -, hexec⟩⟩⟩ |
    ⟨hr, ⟨-, rfl⟩ | ⟨a, rest, q', r, -, hir, -, hexec⟩⟩
  · simp at ht
  · simp at ht
  · obtain ⟨-, hfetch⟩ : s.run = .running ∧ s.fetches q := by simpa [hr] using hq
    rw [(exec_keeps hexec).2.2, fetches_unique hfetch hq']
    rfl
  · simp [hr] at ht
  · obtain ⟨-, hir'⟩ : s.run = .waitInput ∧ s.ir = some q := by simpa [hr] using hq
    exact (exec_keeps hexec).2.2.trans hir'

/-- Settles O24: the observation is of the state the step leaves, and only a committed step has one. -/
theorem observationOfEveryCommittedStep : Obligations.ObservationOfEveryCommittedStep := by
  refine ⟨fun s t q hq h ht => ?_, fun s t h ht => ?_, fun s hr => ?_⟩
  · refine ⟨⟨q, t.pc, t.bp, t.sp, t.rf, t.liveStack⟩, ?_, rfl, rfl, rfl, rfl, rfl, mem_liveStack t⟩
    rw [stepObservation_of_committed h ht, State.observe, step_committed_ir hq h ht]
    rfl
  · refine stepObservation_of_uncommitted h ?_
    rcases ht with ht | ht <;> simp [ht]
  · rcases hr with hr | hr
    · simp only [stepObservation, step_of_halted hr]
    · simp only [stepObservation, step_of_faulted hr]

/-- Settles O50: the execution of SYS halt only sets the run state, in which no step follows. -/
theorem sysHaltStopsTheEngine : Obligations.SysHaltStopsTheEngine := by
  refine ⟨fun _ _ => rfl, fun _ => rfl, fun s q hr hq hd => ?_⟩
  have hstep : step s = .next (s.latch q).halt := step_of_decode_ok hr hq hd
  exact ⟨_, hstep, rfl, rfl, stepObservation_of_committed hstep (.inr rfl),
    fun u => noStepAfterHaltOrFault _ u (.inl rfl)⟩

end Sys2Proof.Machine
end

section
/-! PROOFS. Where a walk of the address resolver fails (20_memory R57, R58). -/

namespace Sys2Proof.Machine

theorem State.linkRead_error_iff {s : State} {a : Int} {e : Raise} :
    s.linkRead a = .error e ↔
      ¬ s.inArray a ∧ e = ⟨.resolveRange, a⟩ ∨ s.inArray a ∧ s.cell a.toNat = none ∧ e = ⟨.cellUnwritten, a⟩ := by
  unfold State.linkRead
  by_cases hin : s.inArray a
  · cases hc : s.cell a.toNat with
    | none =>
      rw [State.readCell_none _ hin hc]
      grind
    | some v =>
      rw [State.readCell_some _ hin hc]
      grind
  · rw [State.readCell_range _ hin]
    grind

/-- A walk of one level more raises at its first hop, or goes on from where that leads and raises there. -/
theorem State.resolve_succ_error_iff {s : State} {l : Nat} {b : Int} {e : Raise} :
    s.resolve (l + 1) b = .error e ↔
      s.linkRead b = .error e ∨ ∃ x, s.linkRead b = .ok x ∧ s.resolve l x = .error e := by
  rw [State.resolve_succ]
  cases s.linkRead b <;> simp

/-- The resolver raises at the first hop that raises. -/
theorem State.resolve_error_iff {s : State} {l : Nat} {b : Int} {e : Raise} :
    s.resolve l b = .error e ↔ ∃ k c, k < l ∧ s.resolve k b = .ok c ∧ s.linkRead c = .error e := by
  induction l generalizing b with
  | zero => simp
  | succ l ih =>
    rw [State.resolve_succ_error_iff]
    constructor
    · rintro (hfirst | ⟨x, hfirst, hrest⟩)
      · exact ⟨0, b, l.succ_pos, rfl, hfirst⟩
      · obtain ⟨k, c, hk, hwalk, hfail⟩ := ih.mp hrest
        exact ⟨k + 1, c, Nat.succ_lt_succ hk, State.resolve_succ_ok_iff.mpr ⟨x, hfirst, hwalk⟩, hfail⟩
    · rintro ⟨k, c, hk, hwalk, hfail⟩
      cases k with
      | zero =>
        cases hwalk
        exact .inl hfail
      | succ k =>
        obtain ⟨x, hfirst, hrest⟩ := State.resolve_succ_ok_iff.mp hwalk
        exact .inr ⟨x, hfirst, ih.mpr ⟨k, c, Nat.lt_of_succ_lt_succ hk, hrest, hfail⟩⟩

/-- Settles O33: a hop raises outside the array and at an empty cell, and the first that does ends the walk. -/
theorem resolverRaisesAtTheFirstFailingHop : Obligations.ResolverRaisesAtTheFirstFailingHop := by
  intro s l b e
  simp only [State.resolve_error_iff, State.linkRead_error_iff]

end Sys2Proof.Machine
end

section
/-! PROOFS. LOD and STO (41_load_store R97, R98): what they do and the order of their errors, the frame of STO, and the word
a LOD reads back. -/

namespace Sys2Proof.Machine

/-! ## The effective address -/

theorem State.effectiveAddress_of_error {s : State} {l : Nat} {e : Raise} (m : Int) (h : s.resolve l s.bp = .error e) :
    s.effectiveAddress l m = .error e := by
  simp [State.effectiveAddress, h]

theorem State.effectiveAddress_of_ok {s : State} {l : Nat} {b : Int} (m : Int) (h : s.resolve l s.bp = .ok b) :
    s.effectiveAddress l m = .ok (b - m) := by
  simp [State.effectiveAddress, h]

/-! ## LOD -/

theorem exec_lod_of_address {s : State} {l : Nat} {m ea : Int} (r : Reg) (h : s.effectiveAddress l m = .ok ea) :
    exec (.lod r l m) s = s.finish (s.memRead ea >>= fun v => .ok (s.writeReg r v)) := by
  simp [exec, execLod, h]

theorem exec_lod_of_no_address {s : State} {l : Nat} {m : Int} {e : Raise} (r : Reg)
    (h : s.effectiveAddress l m = .error e) : exec (.lod r l m) s = .next (s.raise e) := by
  simp [exec, execLod, h, State.finish_error]

theorem exec_lod_of_word {s : State} {l : Nat} {m ea v : Int} (r : Reg) (h : s.effectiveAddress l m = .ok ea)
    (hin : s.inArray ea) (hv : s.cell ea.toNat = some v) : exec (.lod r l m) s = .next (s.writeReg r v) := by
  rw [exec_lod_of_address r h, State.memRead, State.readCell_some _ hin hv]
  rfl

/-- Settles O36: with the walk done, LOD is a checked read of a cell and a write of a register. -/
theorem lodLoadsTheResolvedCell : Obligations.LodLoadsTheResolvedCell := by
  refine fun s r l m => ⟨fun e h => exec_lod_of_no_address r (State.effectiveAddress_of_error m h), fun b h => ?_⟩
  have hea := State.effectiveAddress_of_ok m h
  refine ⟨fun hout => ?_, fun hin hempty => ?_, fun v => exec_lod_of_word r hea⟩
  · rw [exec_lod_of_address r hea, State.memRead, State.readCell_range _ hout]
    rfl
  · rw [exec_lod_of_address r hea, State.memRead, State.readCell_none _ hin hempty]
    rfl

/-! ## STO -/

theorem exec_sto_of_address {s : State} {l : Nat} {m ea : Int} (r : Reg) (h : s.effectiveAddress l m = .ok ea) :
    exec (.sto r l m) s = s.finish (s.checkAddr ea >>= fun _ => s.readReg r >>= fun v => s.memWrite ea v) := by
  simp [exec, execSto, h]

/-- Settles O37: with the walk done, STO checks the address, reads the register and writes the cell. -/
theorem stoStoresToTheResolvedCell : Obligations.StoStoresToTheResolvedCell := by
  refine fun s r l m => ⟨fun e h => ?_, fun b h => ?_⟩
  · simp [exec, execSto, State.effectiveAddress_of_error m h, State.finish_error]
  · rw [exec_sto_of_address r (State.effectiveAddress_of_ok m h)]
    refine ⟨fun hout => ?_, fun hin hempty => ?_, fun v hin hv => ⟨s.writeCell (b - m).toNat v, ?_, rfl, ?_, ?_⟩⟩
    · rw [State.checkAddr_range hout]
      rfl
    · rw [State.checkAddr_in hin, State.readReg_none hempty]
      rfl
    · rw [State.checkAddr_in hin, State.readReg_some hv, Except.okBind, Except.okBind, State.memWrite_in v hin]
      rfl
    · rw [State.cell_writeCell, if_pos rfl]
    · intro a hne
      rw [State.cell_writeCell, if_neg hne.symm]

/-- A STO either took an error or stored its register at its effective address. -/
theorem exec_sto_cases {s t : State} {r : Reg} {l : Nat} {m : Int} (h : exec (.sto r l m) s = .next t) :
    (∃ e, t = s.raise e) ∨ ∃ a v, s.inArray a ∧ s.effectiveAddress l m = .ok a ∧ s.rf.get r = some v
      ∧ t = s.writeCell a.toNat v := by
  cases exec_cases h with
  | raise => exact .inl ⟨_, rfl⟩
  | unary _ _ hi => simp at hi
  | binary _ _ _ _ hi => simp at hi
  | sto _ _ _ a v hin hea hv => exact .inr ⟨a, v, hin, hea, hv, rfl⟩

/-- Settles O38: an error leaves every cell, and a store every cell but the one at the effective address. -/
theorem stoFrame : Obligations.StoFrame := by
  intro s t r l m h
  rcases exec_sto_cases h with ⟨e, rfl⟩ | ⟨a, v, -, hea, -, rfl⟩
  · exact ⟨rfl, rfl, rfl, rfl, rfl, rfl, rfl, rfl, fun ht => absurd rfl ht, fun _ _ _ _ => rfl, fun _ _ _ => rfl,
      fun _ _ _ => rfl⟩
  · refine ⟨rfl, rfl, rfl, rfl, rfl, rfl, rfl, rfl, fun _ => rfl, fun ea hea' b hne => ?_, fun e he => ?_,
      fun hs ht => absurd ht hs⟩
    · have haddr : a = ea := by simpa [hea] using hea'
      rw [State.cell_writeCell, if_neg (haddr ▸ hne.symm)]
    · simp [hea] at he

theorem exec_sto_completed {s t : State} {r : Reg} {l : Nat} {m : Int} (h : exec (.sto r l m) s = .next t)
    (ht : t.run = .running) : ∃ a v, s.inArray a ∧ s.effectiveAddress l m = .ok a ∧ s.rf.get r = some v
      ∧ t = s.writeCell a.toNat v := by
  rcases exec_sto_cases h with ⟨e, rfl⟩ | hstored
  · simp at ht
  · exact hstored

/-- The cell a STO wrote is in the array and holds the word of its register. -/
theorem lod_after_sto {s t : State} {r q : Reg} {l k : Nat} {m n ea : Int} (h : exec (.sto r l m) s = .next t)
    (ht : t.run = .running) (hs : s.effectiveAddress l m = .ok ea) (hea : t.effectiveAddress k n = .ok ea) :
    exec (.lod q k n) t = .next { t with rf := t.rf.set q (s.rf.get r) } := by
  obtain ⟨a, v, hin, ha, hv, rfl⟩ := exec_sto_completed h ht
  have haddr : a = ea := by simpa [ha] using hs
  subst haddr
  have hword : (s.writeCell a.toNat v).cell a.toNat = some v := by rw [State.cell_writeCell, if_pos rfl]
  rw [exec_lod_of_word q hea hin hword, hv]
  rfl

/-- Settles O39: at level 0 the effective address is BP less the offset, and a STO leaves BP. -/
theorem loadAfterStoreGivesTheWordStored : Obligations.LoadAfterStoreGivesTheWordStored := by
  refine ⟨fun s t r q l k m n ea _ h ht => lod_after_sto h ht, fun s t r q m _ h ht => ?_⟩
  obtain ⟨a, v, -, -, -, hst⟩ := exec_sto_completed h ht
  have hbp : t.bp = s.bp := by rw [hst, State.writeCell_bp]
  exact lod_after_sto h ht rfl (by rw [State.effectiveAddress_of_ok m (State.resolve_zero t t.bp), hbp])

end Sys2Proof.Machine
end

section
/-! PROOFS. RTN, CAL and INC (42_activation R101 to R103): what they do and the order of their errors, the frame a CAL
builds, and the RTN that takes it down. -/

namespace Sys2Proof.Machine

/-! ## INC and RTN -/

theorem State.checkSp_in {s : State} {v : Int} (h : 0 ≤ v ∧ v ≤ s.params.stackCap) : s.checkSp v = .ok v := if_pos h

theorem State.checkSp_out {s : State} {v : Int} (h : ¬ (0 ≤ v ∧ v ≤ s.params.stackCap)) :
    s.checkSp v = .error ⟨.spRange, v⟩ := if_neg h

/-- Settles O43: the check of the new SP decides. -/
theorem incMovesTheStackPointer : Obligations.IncMovesTheStackPointer := by
  refine fun s m => ⟨fun h => ?_, fun h => ?_⟩
  · simp only [exec, execInc, State.checkSp_in h]
    rfl
  · simp only [exec, execInc, State.checkSp_out h]
    rfl

theorem exec_rtn_of_sp {s : State} (h : 0 ≤ s.bp + 1 ∧ s.bp + 1 ≤ s.params.stackCap) :
    exec .rtn s = s.finish (s.memRead (s.bp - 1) >>= fun dl => s.memRead (s.bp - 2) >>= fun ra =>
      .ok (((s.setSp (s.bp + 1)).setBp dl).setPc ra)) := by
  have hdl : s.bp + 1 - 2 = s.bp - 1 := by omega
  have hra : s.bp + 1 - 3 = s.bp - 2 := by omega
  simp [exec, execRtn, State.checkSp_in h, hdl, hra]

/-- Settles O40: RTN checks the new SP, then reads the dynamic link, then the return address. -/
theorem rtnRestoresTheCaller : Obligations.RtnRestoresTheCaller := by
  refine fun s => ⟨fun hsp => ?_, fun hsp => ?_⟩
  · simp only [exec, execRtn, State.checkSp_out hsp]
    rfl
  · rw [exec_rtn_of_sp hsp]
    refine ⟨fun hout => ?_, fun hin hempty => ?_, fun dl hin hdl => ?_⟩
    · rw [State.memRead, State.readCell_range _ hout]
      rfl
    · rw [State.memRead, State.readCell_none _ hin hempty]
      rfl
    · rw [State.memRead, State.readCell_some _ hin hdl, Except.okBind]
      refine ⟨fun hout => ?_, fun hin hempty => ?_, fun ra hin hra => ?_⟩
      · rw [State.memRead, State.readCell_range _ hout]
        rfl
      · rw [State.memRead, State.readCell_none _ hin hempty]
        rfl
      · rw [State.memRead, State.readCell_some _ hin hra]
        rfl

/-! ## CAL -/

/-- The state with the three control words of a CAL written below SP. -/
def State.pushFrame (s : State) (c : Int) : State :=
  ((s.writeCell (s.sp - 1).toNat c).writeCell (s.sp - 2).toNat s.bp).writeCell (s.sp - 3).toNat s.pc

theorem State.pushFrame_staticLink (s : State) (c : Int) (h : 0 ≤ s.sp - 3) :
    (s.pushFrame c).cell (s.sp - 1).toNat = some c := by
  rw [State.pushFrame, State.cell_writeCell, if_neg (by omega), State.cell_writeCell, if_neg (by omega),
    State.cell_writeCell, if_pos rfl]

theorem State.pushFrame_dynamicLink (s : State) (c : Int) (h : 0 ≤ s.sp - 3) :
    (s.pushFrame c).cell (s.sp - 2).toNat = some s.bp := by
  rw [State.pushFrame, State.cell_writeCell, if_neg (by omega), State.cell_writeCell, if_pos rfl]

theorem State.pushFrame_returnAddress (s : State) (c : Int) : (s.pushFrame c).cell (s.sp - 3).toNat = some s.pc := by
  rw [State.pushFrame, State.cell_writeCell, if_pos rfl]

theorem State.pushFrame_other (s : State) (c : Int) {a : Nat} (h1 : a ≠ (s.sp - 1).toNat)
    (h2 : a ≠ (s.sp - 2).toNat) (h3 : a ≠ (s.sp - 3).toNat) : (s.pushFrame c).cell a = s.cell a := by
  rw [State.pushFrame, State.cell_writeCell, if_neg h3.symm, State.cell_writeCell, if_neg h2.symm,
    State.cell_writeCell, if_neg h1.symm]

/-- A CAL either took an error or built its frame in the array. -/
theorem exec_cal_cases {s t : State} {l : Nat} {m : Int} (h : exec (.cal l m) s = .next t) :
    (∃ e, t = s.raise e) ∨ ∃ c, s.resolve l s.bp = .ok c ∧ 0 ≤ s.sp - 3 ∧ s.inArray (s.sp - 1)
      ∧ t = ((s.pushFrame c).setBp (s.sp - 1)).setPc m := by
  cases exec_cases h with
  | raise => exact .inl ⟨_, rfl⟩
  | unary _ _ hi => simp at hi
  | binary _ _ _ _ hi => simp at hi
  | cal _ _ c hc h1 _ h3 => exact .inr ⟨c, hc, h3.1, h1, rfl⟩

theorem exec_cal_completed {s t : State} {l : Nat} {m : Int} (h : exec (.cal l m) s = .next t)
    (ht : t.run ≠ .faulted) : ∃ c, s.resolve l s.bp = .ok c ∧ 0 ≤ s.sp - 3 ∧ s.inArray (s.sp - 1)
      ∧ t = ((s.pushFrame c).setBp (s.sp - 1)).setPc m := by
  rcases exec_cal_cases h with ⟨e, rfl⟩ | hbuilt
  · exact absurd rfl ht
  · exact hbuilt

/-- CAL with its static link resolved: the three checked writes, then BP and PC. -/
theorem exec_cal_of_link {s : State} {l : Nat} {c : Int} (m : Int) (h : s.resolve l s.bp = .ok c) :
    exec (.cal l m) s = s.finish (s.memWrite (s.sp - 1) c >>= fun s1 => s1.memWrite (s.sp - 2) s.bp >>= fun s2 =>
      s2.memWrite (s.sp - 3) s.pc >>= fun s3 => .ok ((s3.setBp (s.sp - 1)).setPc m)) := by
  simp [exec, execCal, h]

/-- Settles O41: SP is at most STACK_CAP, so each of the three addresses leaves the array only below 0. -/
theorem calBuildsTheFrame : Obligations.CalBuildsTheFrame := by
  refine fun s l m => ⟨fun e h => ?_, fun c hc hcap => ?_⟩
  · simp [exec, execCal, h, State.finish_error]
  · rw [exec_cal_of_link m hc]
    have hin : ∀ k : Int, 1 ≤ k → k ≤ s.sp → s.inArray (s.sp - k) := fun k h1 hk => ⟨by omega, by omega⟩
    have hout : ∀ k : Int, s.sp < k → ¬ s.inArray (s.sp - k) := fun k hk h => by have := h.1; omega
    refine ⟨fun hsp => ?_, fun hsp => ?_, fun hsp => ?_, fun hsp => ?_⟩
    · rw [State.memWrite_range _ (hout 1 (by omega))]
      rfl
    · rw [State.memWrite_in _ (hin 1 (by omega) (by omega)), Except.okBind,
        State.memWrite_range (s := s.writeCell _ _) _ (hout 2 (by omega))]
      rfl
    · rw [State.memWrite_in _ (hin 1 (by omega) (by omega)), Except.okBind,
        State.memWrite_in (s := s.writeCell _ _) _ (hin 2 (by omega) (by omega)), Except.okBind,
        State.memWrite_range (s := (s.writeCell _ _).writeCell _ _) _ (hout 3 (by omega))]
      rfl
    · refine ⟨((s.pushFrame c).setBp (s.sp - 1)).setPc m, ?_, rfl, s.pushFrame_staticLink c (by omega),
        s.pushFrame_dynamicLink c (by omega), s.pushFrame_returnAddress c,
        fun a h1 h2 h3 => s.pushFrame_other c h1 h2 h3⟩
      rw [State.memWrite_in _ (hin 1 (by omega) (by omega)), Except.okBind,
        State.memWrite_in (s := s.writeCell _ _) _ (hin 2 (by omega) (by omega)), Except.okBind,
        State.memWrite_in (s := (s.writeCell _ _).writeCell _ _) _ (hin 3 (by omega) (by omega))]
      rfl

/-- Settles O42: an error leaves every cell, and the frame lies in the three cells below SP. -/
theorem calFrame : Obligations.CalFrame := by
  intro s t l m h
  rcases exec_cal_cases h with ⟨e, rfl⟩ | ⟨c, -, hlow, -, rfl⟩
  · exact ⟨rfl, rfl, rfl, rfl, rfl, rfl, rfl, fun ht => absurd rfl ht, fun _ _ _ _ => rfl⟩
  · refine ⟨rfl, rfl, rfl, rfl, rfl, rfl, rfl, fun _ => rfl, fun a h1 h2 h3 => ?_⟩
    exact s.pushFrame_other c (by omega) (by omega) (by omega)

/-- Settles O34: the new base is the address of the static link, which is what the resolver gave the caller. -/
theorem callLinksTheEnclosingFrame : Obligations.CallLinksTheEnclosingFrame := by
  intro s t l m h ht
  obtain ⟨c, hc, hlow, hin, rfl⟩ := exec_cal_completed h ht
  refine ⟨rfl, ?_, c, hc⟩
  rw [hc, State.resolve_succ_ok_iff]
  exact ⟨c, State.linkRead_ok_iff.mpr ⟨hin, s.pushFrame_staticLink c hlow⟩, rfl⟩

/-- Settles O44: the two link cells hold the caller's BP and PC, and the new base is one below its SP. -/
theorem returnUndoesTheCall : Obligations.ReturnUndoesTheCall := by
  intro s t u l m hcap h ht hparams hbp hdl hra
  obtain ⟨c, -, hlow, -, rfl⟩ := exec_cal_completed h ht
  have hbp' : u.bp = s.sp - 1 := hbp
  have hstack : u.params.stackCap = s.params.stackCap := congrArg Params.stackCap hparams
  have hsp : u.bp + 1 = s.sp := by omega
  have hdl' : u.bp - 1 = s.sp - 2 := by omega
  have hra' : u.bp - 2 = s.sp - 3 := by omega
  obtain ⟨-, hreturn⟩ := rtnRestoresTheCaller u
  obtain ⟨-, -, hlinks⟩ := hreturn ⟨by omega, by omega⟩
  obtain ⟨-, -, hdone⟩ := hlinks s.bp ⟨by omega, by omega⟩
    (by rw [hdl', hdl]; exact s.pushFrame_dynamicLink c hlow)
  have hfinal := hdone s.pc ⟨by omega, by omega⟩ (by rw [hra', hra]; exact s.pushFrame_returnAddress c)
  rwa [hsp] at hfinal

end Sys2Proof.Machine
end

section
/-! PROOFS. Arithmetic (45_arithmetic R118 to R128) and the reads of the binary operations (decision D21). -/

namespace Sys2Proof.Machine

/-! ## The shape of the operations -/

theorem checkWord_of_word {s : State} {v : Int} (h : s.isWord v) : s.checkWord v = .ok v := if_pos h

theorem checkWord_of_not_word {s : State} {v : Int} (h : ¬ s.isWord v) : s.checkWord v = .error ⟨.overflow, v⟩ :=
  if_neg h

theorem unary_of_ok {s : State} {r : Reg} {f : Int → Except Raise Int} {x v : Int} (hx : s.rf.get r = some x)
    (hf : f x = .ok v) : s.unary r f = .next (s.writeReg r v) := by
  rw [unary_some hx, hf]
  rfl

theorem unary_of_error {s : State} {r : Reg} {f : Int → Except Raise Int} {x : Int} {e : Raise}
    (hx : s.rf.get r = some x) (hf : f x = .error e) : s.unary r f = .next (s.raise e) := by
  rw [unary_some hx, hf]
  rfl

theorem unary_of_empty {s : State} {r : Reg} (f : Int → Except Raise Int) (hr : s.rf.get r = none) :
    s.unary r f = .next (s.raise ⟨.regUnwritten, regWord r⟩) := by
  simp [State.unary, State.readReg_none hr, State.finish_error]

theorem binary_of_ok {s : State} {r a b : Reg} {f : Int → Int → Except Raise Int} {x y v : Int}
    (hx : s.rf.get a = some x) (hy : s.rf.get b = some y) (hf : f x y = .ok v) :
    s.binary r a b f = .next (s.writeReg r v) := by
  rw [binary_some hx hy, hf]
  rfl

theorem binary_of_error {s : State} {r a b : Reg} {f : Int → Int → Except Raise Int} {x y : Int} {e : Raise}
    (hx : s.rf.get a = some x) (hy : s.rf.get b = some y) (hf : f x y = .error e) :
    s.binary r a b f = .next (s.raise e) := by
  rw [binary_some hx hy, hf]
  rfl

theorem binary_of_empty_first {s : State} {r a b : Reg} (f : Int → Int → Except Raise Int) (ha : s.rf.get a = none) :
    s.binary r a b f = .next (s.raise ⟨.regUnwritten, regWord a⟩) := by
  simp [State.binary, State.readReg_none ha, State.finish_error]

theorem binary_of_empty_second {s : State} {r a b : Reg} (f : Int → Int → Except Raise Int) {x : Int}
    (ha : s.rf.get a = some x) (hb : s.rf.get b = none) :
    s.binary r a b f = .next (s.raise ⟨.regUnwritten, regWord b⟩) := by
  simp [State.binary, State.readReg_some ha, State.readReg_none hb, State.finish_error]

/-- A binary operation that completes read two words and wrote what they give. -/
theorem binary_completed {s t : State} {r a b : Reg} {f : Int → Int → Except Raise Int}
    (h : s.binary r a b f = .next t) (ht : t.run ≠ .faulted) :
    ∃ x y v, s.rf.get a = some x ∧ s.rf.get b = some y ∧ f x y = .ok v ∧ t = s.writeReg r v := by
  rcases State.finish_cases h with hdone | ⟨e, -, rfl⟩
  · obtain ⟨x, hx, hdone⟩ := Except.bindOk hdone
    obtain ⟨y, hy, hdone⟩ := Except.bindOk hdone
    obtain ⟨v, hv, hdone⟩ := Except.bindOk hdone
    cases hdone
    exact ⟨x, y, v, State.readReg_ok hx, State.readReg_ok hy, hv, rfl⟩
  · exact absurd rfl ht

/-! ## Sources and exact results -/

/-- The eleven binary operations (45_arithmetic R118, 46_relational R129) have one shape. -/
theorem exec_binary_shape {s : State} {r a b : Reg} {i : Instr}
    (hi : i ∈ [Instr.add r a b, .sub r a b, .mul r a b, .div r a b, .mod r a b, .eql r a b, .neq r a b, .lss r a b,
      .leq r a b, .gtr r a b, .geq r a b]) : ∃ f, exec i s = s.binary r a b f := by
  simp only [List.mem_cons, List.not_mem_nil, or_false] at hi
  rcases hi with rfl | rfl | rfl | rfl | rfl | rfl | rfl | rfl | rfl | rfl | rfl <;> exact ⟨_, rfl⟩

/-- Settles O58: the shape reads the first source, then the second, and then computes. -/
theorem binarySourcesAreReadInOrder : Obligations.BinarySourcesAreReadInOrder := by
  intro s r a b i hi
  obtain ⟨f, hf⟩ := exec_binary_shape (s := s) hi
  rw [hf]
  exact ⟨binary_of_empty_first f, fun x => binary_of_empty_second f⟩

/-- The checked exact result of ADD, SUB and MUL (R122 to R124). -/
theorem exec_exact (s : State) {r a b : Reg} {x y z : Int} {i : Instr}
    (hi : (i, z) ∈ [(Instr.add r a b, x + y), (Instr.sub r a b, x - y), (Instr.mul r a b, x * y)]) :
    ∃ f, exec i s = s.binary r a b f ∧ f x y = s.checkWord z := by
  simp only [List.mem_cons, List.not_mem_nil, or_false, Prod.mk.injEq] at hi
  rcases hi with ⟨rfl, rfl⟩ | ⟨rfl, rfl⟩ | ⟨rfl, rfl⟩ <;> exact ⟨_, rfl, rfl⟩

/-- Settles O51: each of the four computes the exact result, which the word check lets through or reports. -/
theorem negAddSubMulAreExact : Obligations.NegAddSubMulAreExact := by
  refine ⟨fun s r x hx => ⟨fun hword => ?_, fun hword => ?_⟩, fun s r a b x y hx hy i z hi => ?_⟩
  · exact unary_of_ok hx (checkWord_of_word hword)
  · exact unary_of_error hx (checkWord_of_not_word hword)
  · obtain ⟨f, hf, hz⟩ := exec_exact s hi
    rw [hf]
    exact ⟨fun hword => binary_of_ok hx hy (hz.trans (checkWord_of_word hword)),
      fun hword => binary_of_error hx hy (hz.trans (checkWord_of_not_word hword))⟩

/-! ## Division -/

/-- Settles O52: the quotient DIV checks is the one with the defining property of truncation. -/
theorem divTruncatesTowardZero : Obligations.DivTruncatesTowardZero := by
  refine fun s r a b x y hx hy => ⟨fun h0 => binary_of_error hx hy (if_pos h0), fun k m hne heq hlt hsign => ?_⟩
  obtain ⟨rfl, -⟩ := tdiv_tmod_unique hne heq hlt hsign
  exact ⟨fun hword => binary_of_ok hx hy ((if_neg hne).trans (checkWord_of_word hword)),
    fun hword => binary_of_error hx hy ((if_neg hne).trans (checkWord_of_not_word hword))⟩

theorem isMin_bounded {n : Nat} {x : Int} : WordBits.isMin (.bounded n) x = true ↔ x = -((2 ^ (n - 1) : Nat) : Int) := by
  simp [WordBits.isMin]

/-- Settles O53: but for WORD_MIN by -1, MOD writes the remainder with the defining property of truncation. -/
theorem modTakesTheDividendsSign : Obligations.ModTakesTheDividendsSign := by
  refine fun s r a b x y hx hy => ⟨fun h0 => binary_of_error hx hy (if_pos h0), fun n hn hmin hy1 => ?_,
    fun k m hne heq hlt hsign hcase => ?_⟩
  · have hoverflow : s.params.wordBits.isMin x = true ∧ y = -1 := ⟨by rw [hn]; exact isMin_bounded.mpr hmin, hy1⟩
    exact binary_of_error hx hy ((if_neg (by omega)).trans (if_pos hoverflow))
  · obtain ⟨-, rfl⟩ := tdiv_tmod_unique hne heq hlt hsign
    have hno : ¬ (s.params.wordBits.isMin x = true ∧ y = -1) := by
      rintro ⟨hmin, hy1⟩
      rcases hcase with hunbounded | ⟨n, hn, hx'⟩ | hy'
      · simp [hunbounded, WordBits.isMin] at hmin
      · rw [hn] at hmin
        exact hx' (isMin_bounded.mp hmin)
      · exact hy' hy1
    exact binary_of_ok hx hy ((if_neg hne).trans (if_neg hno))

/-- The remainder by 2, with the sign of the dividend (R126). -/
theorem tmod_two_eq (x : Int) : x.tmod 2 = if 2 ∣ x then 0 else if 0 < x then 1 else -1 := by
  split
  · next hdvd => exact Int.tmod_eq_zero_of_dvd hdvd
  · next hodd =>
    rcases lt_or_ge 0 x with hpos | hneg
    · rw [if_pos hpos, Int.tmod_eq_emod_of_nonneg hpos.le]
      omega
    · rw [if_neg hneg.not_gt, ← neg_neg x, Int.neg_tmod, Int.tmod_eq_emod_of_nonneg (by omega)]
      omega

/-- Settles O54: ODD writes the remainder by 2, and both one-operand operations read their register first. -/
theorem oddWritesTheSignedParity : Obligations.OddWritesTheSignedParity := by
  refine fun s r => ⟨fun x hx => ?_, fun hr => ⟨unary_of_empty _ hr, unary_of_empty _ hr⟩⟩
  rw [← tmod_two_eq]
  exact unary_of_ok hx rfl

theorem exec_div_completed {s t : State} {r a b : Reg} (h : exec (.div r a b) s = .next t) (ht : t.run ≠ .faulted) :
    ∃ x y, s.rf.get a = some x ∧ s.rf.get b = some y ∧ y ≠ 0 ∧ t = s.writeReg r (x.tdiv y) := by
  obtain ⟨x, y, v, hx, hy, hv, rfl⟩ := binary_completed h ht
  split at hv
  · cases hv
  · next hne =>
    obtain ⟨rfl, -⟩ := State.checkWord_ok hv
    exact ⟨x, y, hx, hy, hne, rfl⟩

theorem exec_mod_completed {s t : State} {r a b : Reg} (h : exec (.mod r a b) s = .next t) (ht : t.run ≠ .faulted) :
    ∃ x y, s.rf.get a = some x ∧ s.rf.get b = some y ∧ t = s.writeReg r (x.tmod y) := by
  obtain ⟨x, y, v, hx, hy, hv, rfl⟩ := binary_completed h ht
  split at hv
  · cases hv
  · split at hv
    · cases hv
    · cases hv
      exact ⟨x, y, hx, hy, rfl⟩

/-- Settles O55: both read the same sources, and truncated quotient and remainder recompose the dividend. -/
theorem quotientAndRemainderRecomposeTheDividend : Obligations.QuotientAndRemainderRecomposeTheDividend := by
  intro s t u r q a b hdiv ht hmod hu
  obtain ⟨x, y, hx, hy, hne, rfl⟩ := exec_div_completed hdiv ht
  obtain ⟨x', y', hx', hy', rfl⟩ := exec_mod_completed hmod hu
  obtain rfl : x = x' := by simpa [hx] using hx'
  obtain rfl : y = y' := by simpa [hy] using hy'
  exact ⟨x, y, x.tdiv y, x.tmod y, hx, hy, s.get_writeReg_same r _, s.get_writeReg_same q _,
    Int.tdiv_mul_add_tmod x y, abs_tmod_lt x hne, tmod_mul_nonneg x y⟩

/-- Settles O56: the statement's list is that of `comparisons`, and `truth` is 1 or 0. -/
theorem relationsCompareSignedWords : Obligations.RelationsCompareSignedWords := by
  intro s r a b x y hx hy i c hi
  have hi' : (i, c) ∈ (comparisons r a b).map (fun e => (e.1, e.2 x y)) := hi
  obtain ⟨⟨_, p⟩, hp, heq⟩ := List.mem_map.mp hi'
  obtain ⟨rfl, rfl⟩ := Prod.mk.inj heq
  exact exec_comparison_of_words hp hx hy

end Sys2Proof.Machine
end

section
/-! PROOFS. The frames (10_state sections 1 to 4): what the instructions that write a register, and those that write neither
a register nor a cell, leave as it was. -/

namespace Sys2Proof.Machine

/-- The register an instruction writes, for those that write one. -/
def destination : Instr → Option Reg
  | .lit r _ | .lod r _ _ | .sysRead r | .neg r | .odd r => some r
  | .add r _ _ | .sub r _ _ | .mul r _ _ | .div r _ _ | .mod r _ _ => some r
  | .eql r _ _ | .neq r _ _ | .lss r _ _ | .leq r _ _ | .gtr r _ _ | .geq r _ _ => some r
  | .rtn | .sto _ _ _ | .cal _ _ | .inc _ | .jmp _ | .jpc _ _ | .sysWrite _ | .sysHalt => none

theorem destination_binary {i : Instr} {r a b : Reg}
    (hi : i ∈ [Instr.add r a b, .sub r a b, .mul r a b, .div r a b, .mod r a b, .eql r a b, .neq r a b, .lss r a b,
      .leq r a b, .gtr r a b, .geq r a b]) : destination i = some r := by
  simp only [List.mem_cons, List.not_mem_nil, or_false] at hi
  rcases hi with rfl | rfl | rfl | rfl | rfl | rfl | rfl | rfl | rfl | rfl | rfl <;> rfl

/-- An instruction with a destination raises, waits, or writes it; only a SYS read takes an answer. -/
theorem exec_destination_cases {s t : State} {i : Instr} {r : Reg} (hi : destination i = some r)
    (h : exec i s = .next t) :
    ∃ answers, (i ≠ .sysRead r → answers = s.answers) ∧
      ((∃ e, t = (s.setAnswers answers).raise e) ∨ t = (s.setAnswers answers).wait
        ∨ ∃ v, t = (s.setAnswers answers).writeReg r v) := by
  cases exec_cases h with
  | raise => exact ⟨s.answers, fun _ => rfl, .inl ⟨_, rfl⟩⟩
  | lit | lod =>
    cases hi
    exact ⟨s.answers, fun _ => rfl, .inr (.inr ⟨_, rfl⟩)⟩
  | unary q v hunary =>
    rcases hunary with rfl | rfl <;> cases hi <;> exact ⟨s.answers, fun _ => rfl, .inr (.inr ⟨_, rfl⟩)⟩
  | binary q a b v hbinary =>
    rw [destination_binary hbinary] at hi
    cases hi
    exact ⟨s.answers, fun _ => rfl, .inr (.inr ⟨_, rfl⟩)⟩
  | sysWait => exact ⟨s.answers, fun _ => rfl, .inr (.inl rfl)⟩
  | sysRead q a rest v ha =>
    cases hi
    exact ⟨rest, fun hne => absurd rfl hne, .inr (.inr ⟨_, rfl⟩)⟩
  | sysReadError q a rest e ha =>
    cases hi
    exact ⟨rest, fun hne => absurd rfl hne, .inl ⟨_, rfl⟩⟩
  | sto | rtn | cal | inc | jmp | jpcTaken | jpcFall | sysWrite | sysHalt => cases hi

/-- Settles O59: an error and a wait change no register, and a write only the one it names. -/
theorem registerWritersFrame : Obligations.RegisterWritersFrame := by
  intro s t r i hi h
  have hdest : destination i = some r := by
    rcases hi with ⟨v, rfl⟩ | ⟨l, m, rfl⟩ | rfl | rfl | rfl | ⟨a, b, hbinary⟩
    case inr.inr.inr.inr.inr => exact destination_binary hbinary
    all_goals rfl
  obtain ⟨answers, hanswers, ⟨e, rfl⟩ | rfl | ⟨v, rfl⟩⟩ := exec_destination_cases hdest h
  · exact ⟨fun _ _ => rfl, fun _ => rfl, rfl, rfl, rfl, rfl, rfl, rfl, hanswers, .inr (.inl rfl),
      fun hrun hr => by simp [hr] at hrun, fun ht => absurd rfl ht⟩
  · exact ⟨fun _ _ => rfl, fun _ => rfl, rfl, rfl, rfl, rfl, rfl, rfl, hanswers, .inr (.inr rfl),
      fun hrun hr => by simp [hr] at hrun, fun _ => rfl⟩
  · refine ⟨fun q hq => ?_, fun _ => rfl, rfl, rfl, rfl, rfl, rfl, rfl, hanswers, .inl rfl, fun _ _ => rfl,
      fun _ => rfl⟩
    rw [State.get_writeReg, if_neg hq.symm]
    rfl

/-- Settles O60: what these instructions write is a pointer, PC, the output or the run state. -/
theorem controlInstructionsFrame : Obligations.ControlInstructionsFrame := by
  intro s t i hi h
  cases exec_cases h with
  | raise => exact ⟨fun _ => rfl, fun _ => rfl, rfl, rfl, rfl, rfl, fun _ => rfl, fun ht => absurd rfl ht⟩
  | rtn | inc | jmp | jpcTaken | jpcFall | sysHalt =>
    exact ⟨fun _ => rfl, fun _ => rfl, rfl, rfl, rfl, rfl, fun _ => rfl, fun _ => rfl⟩
  | sysWrite r v => exact ⟨fun _ => rfl, fun _ => rfl, rfl, rfl, rfl, rfl, fun hne => absurd rfl (hne r), fun _ => rfl⟩
  | unary r v hunary => rcases hunary with rfl | rfl <;> simp at hi
  | binary r a b v hbinary =>
    have hdest := destination_binary hbinary
    rcases hi with rfl | ⟨m, rfl⟩ | ⟨m, rfl⟩ | ⟨q, m, rfl⟩ | ⟨q, rfl⟩ | rfl <;> cases hdest
  | _ => simp at hi

end Sys2Proof.Machine
end

section
/-! PROOFS. What an instruction and a step do not look at: SP, BP, the stack memory, the answers and the output log
(10_state sections 2, 4 and 5, 20_memory section 1). -/

namespace Sys2Proof.Machine

/-! ## Instructions under a changed field -/

/-- `g` leaves SP and BP alone too. -/
structure BlindPointers (g : State → State) : Prop extends BlindStack g where
  sp : ∀ s, (g s).sp = s.sp
  bp : ∀ s, (g s).bp = s.bp
  setSp : ∀ s v, (g s).setSp v = g (s.setSp v)
  setBp : ∀ s v, (g s).setBp v = g (s.setBp v)

/-- The instructions other than SYS read and SYS write look at registers, parameters, PC, cells and pointers alone. -/
theorem exec_map_of_blindPointers {g : State → State} (hg : BlindPointers g) {i : Instr} {s t : State}
    (hread : ∀ r, i ≠ .sysRead r) (hwrite : ∀ r, i ≠ .sysWrite r) (h : exec i s = .next t) :
    exec i (g s) = .next (g t) := by
  have hstack := hg.toBlindStack
  have hblind := hg.toBlind
  cases i with
  | rtn => exact rtn_map hstack hg.bp (fun s a b c => by rw [hg.setSp, hg.setBp, hblind.setPc]) h
  | lod r l m => exact lod_map hstack hg.bp h
  | sto r l m => exact sto_map hstack hg.bp h
  | cal l m => exact cal_map hstack hg.bp hg.sp (fun s b c => by rw [hg.setBp, hblind.setPc]) h
  | inc n => exact inc_map hblind hg.sp hg.setSp h
  | sysWrite r => exact absurd rfl (hwrite r)
  | sysRead r => exact absurd rfl (hread r)
  | _ => exact exec_map hblind h trivial

/-- `g` leaves the ports and SP alone, whatever it does to BP and the stack memory. -/
structure BlindPorts (g : State → State) : Prop extends Blind g where
  sp : ∀ s, (g s).sp = s.sp
  setSp : ∀ s v, (g s).setSp v = g (s.setSp v)
  emit : ∀ s r v, (g s).emit r v = g (s.emit r v)
  answers : ∀ s, (g s).answers = s.answers
  setAnswers : ∀ s rest, (g s).setAnswers rest = g (s.setAnswers rest)
  wait : ∀ s, (g s).wait = g s.wait

/-- The instructions other than LOD, STO, CAL and RTN look at neither BP nor a cell. -/
theorem exec_map_of_blindPorts {g : State → State} (hg : BlindPorts g) {i : Instr} {s t : State} (hrtn : i ≠ .rtn)
    (hcal : ∀ l m, i ≠ .cal l m) (hlod : ∀ r l m, i ≠ .lod r l m) (hsto : ∀ r l m, i ≠ .sto r l m)
    (h : exec i s = .next t) : exec i (g s) = .next (g t) := by
  have hblind := hg.toBlind
  cases i with
  | rtn => exact absurd rfl hrtn
  | lod r l m => exact absurd rfl (hlod r l m)
  | sto r l m => exact absurd rfl (hsto r l m)
  | cal l m => exact absurd rfl (hcal l m)
  | inc n => exact inc_map hblind hg.sp hg.setSp h
  | sysWrite r => exact sysWrite_map hblind hg.emit h
  | sysRead r => exact sysRead_map hblind hg.answers hg.setAnswers hg.wait h
  | _ => exact exec_map hblind h trivial

/-! ## The stack memory -/

/-- The state with another stack memory in place of its own. -/
def State.withMemory (mem : Memory) (s : State) : State := { s with st := mem }

theorem blindPorts_withMemory (mem : Memory) : BlindPorts (State.withMemory mem) := by
  constructor
  case toBlind => constructor <;> intros <;> rfl
  all_goals intros; rfl

/-- STO and CAL alone write cells. -/
theorem exec_keeps_cell {i : Instr} {s t : State} (hcal : ∀ l m, i ≠ .cal l m) (hsto : ∀ r l m, i ≠ .sto r l m)
    (h : exec i s = .next t) (a : Nat) : t.cell a = s.cell a := by
  cases exec_cases h with
  | sto r l m => exact absurd rfl (hsto r l m)
  | cal l m => exact absurd rfl (hcal l m)
  | _ => rfl

/-- Settles O29: the other instructions do under any stack memory what they do under the present one. -/
theorem stackMemoryTouchedOnlyByItsInstructions : Obligations.StackMemoryTouchedOnlyByItsInstructions :=
  fun _ _ _ hrtn hcal hlod hsto h =>
    ⟨exec_keeps_cell hcal hsto h, fun mem => exec_map_of_blindPorts (blindPorts_withMemory mem) hrtn hcal hlod hsto h⟩

/-! ## SP and BP -/

theorem exec_keeps_sp {i : Instr} {s t : State} (hrtn : i ≠ .rtn) (hinc : ∀ n, i ≠ .inc n) (h : exec i s = .next t) :
    t.sp = s.sp := by
  cases exec_cases h with
  | rtn => exact absurd rfl hrtn
  | inc n => exact absurd rfl (hinc n)
  | _ => rfl

theorem exec_keeps_bp {i : Instr} {s t : State} (hrtn : i ≠ .rtn) (hcal : ∀ l m, i ≠ .cal l m)
    (h : exec i s = .next t) : t.bp = s.bp := by
  cases exec_cases h with
  | rtn => exact absurd rfl hrtn
  | cal l m => exact absurd rfl (hcal l m)
  | _ => rfl

theorem blindStack_setSp (v : Int) : BlindStack (fun s => s.setSp v) := by
  constructor
  case toBlind => constructor <;> intros <;> rfl
  all_goals intros; rfl

theorem exec_setSp {i : Instr} {s t : State} (hrtn : i ≠ .rtn) (hinc : ∀ n, i ≠ .inc n) (hcal : ∀ l m, i ≠ .cal l m)
    (h : exec i s = .next t) (v : Int) : exec i (s.setSp v) = .next (t.setSp v) := by
  have hg := blindStack_setSp v
  cases i with
  | rtn => exact absurd rfl hrtn
  | inc n => exact absurd rfl (hinc n)
  | cal l m => exact absurd rfl (hcal l m)
  | lod r l m => exact lod_map hg (fun _ => rfl) h
  | sto r l m => exact sto_map hg (fun _ => rfl) h
  | sysWrite r => exact sysWrite_map hg.toBlind (fun _ _ _ => rfl) h
  | sysRead r => exact sysRead_map hg.toBlind (fun _ => rfl) (fun _ _ => rfl) (fun _ => rfl) h
  | _ => exact exec_map hg.toBlind h trivial

/-- RTN sets SP without looking at the old one (42_activation R101). -/
theorem exec_rtn_setSp {s t : State} (h : exec .rtn s = .next t) (ht : t.run ≠ .faulted) (v : Int) :
    exec .rtn (s.setSp v) = .next t := by
  rcases State.finish_cases h with hdone | ⟨e, -, rfl⟩
  · show (s.setSp v).finish _ = _
    rw [← State.finish_ok (s.setSp v) t, ← hdone]
    rfl
  · exact absurd rfl ht

theorem blindPorts_setBp (v : Int) : BlindPorts (fun s => s.setBp v) := by
  constructor
  case toBlind => constructor <;> intros <;> rfl
  all_goals intros; rfl

/-- Settles O28: each clause is one of what an instruction writes, or does under another SP or BP. -/
theorem pointerRegistersTouchedOnlyByTheirInstructions : Obligations.PointerRegistersTouchedOnlyByTheirInstructions := by
  refine fun i s t h => ⟨fun hrtn hinc => exec_keeps_sp hrtn hinc h, fun hrtn hcal => exec_keeps_bp hrtn hcal h,
    fun hrtn hinc hcal => exec_setSp hrtn hinc hcal h, ?_, fun hrtn hcal hlod hsto v =>
      exec_map_of_blindPorts (blindPorts_setBp v) hrtn hcal hlod hsto h⟩
  rintro rfl ht
  exact exec_rtn_setSp h ht

end Sys2Proof.Machine
end

section
/-! PROOFS. The ports and the step (10_state R35, R41, R47): which answer a step takes, and what it adds to the log. -/

namespace Sys2Proof.Machine

/-! ## Answers -/

theorem blindPointers_setAnswers (answers : List Answer) : BlindPointers (fun s => s.setAnswers answers) := by
  constructor
  case toBlindStack =>
    constructor
    case toBlind => constructor <;> intros <;> rfl
    all_goals intros; rfl
  all_goals intros; rfl

/-- Every instruction but SYS read does under any answers what it does under the present ones. -/
theorem exec_setAnswers (answers : List Answer) {i : Instr} {s t : State} (hi : ∀ r, i ≠ .sysRead r)
    (h : exec i s = .next t) : exec i (s.setAnswers answers) = .next (t.setAnswers answers) := by
  have hg := blindPointers_setAnswers answers
  by_cases hwrite : ∃ r, i = .sysWrite r
  · obtain ⟨r, rfl⟩ := hwrite
    exact sysWrite_map hg.toBlind (fun _ _ _ => rfl) h
  · exact exec_map_of_blindPointers hg hi (fun r hr => hwrite ⟨r, hr⟩) h

/-- A SYS read that finds an answer consumes it. -/
theorem exec_sysRead_consumes {s t : State} {r : Reg} {a : Answer} {rest : List Answer} (ha : s.answers = a :: rest)
    (h : exec (.sysRead r) s = .next t) : t.answers = rest := by
  rw [exec_sysRead_of_answer r ha] at h
  rcases State.finish_cases h with hdone | ⟨e, -, rfl⟩
  · obtain ⟨v, -, hdone⟩ := Except.bindOk hdone
    cases hdone
    rfl
  · rfl

/-- A SYS read looks at no answer after the one it takes. -/
theorem exec_sysRead_setAnswers {s t : State} {r : Reg} {a : Answer} {rest : List Answer} (rest' : List Answer)
    (ha : s.answers = a :: rest) (h : exec (.sysRead r) s = .next t) :
    exec (.sysRead r) (s.setAnswers (a :: rest')) = .next (t.setAnswers rest') := by
  rw [exec_sysRead_of_answer r ha] at h
  rw [exec_sysRead_of_answer (s := s.setAnswers (a :: rest')) r rfl]
  exact finish_map (s := s.setAnswers rest) (blindPointers_setAnswers rest').toBlind (bind_map fun v => rfl) h

theorem step_setAnswers_of_no_read (answers : List Answer) {s t : State} (hr : s.run = .running)
    (hno : ∀ q r, s.fetches q → decode q ≠ .ok (.sysRead r)) (h : step s = .next t) :
    step (s.setAnswers answers) = .next (t.setAnswers answers) := by
  have hr' : (s.setAnswers answers).run = .running := hr
  rcases step_running hr h with ⟨hp, rfl⟩ | ⟨q, hq, ⟨e, hd, rfl⟩ | ⟨i, hd, hexec⟩⟩
  · exact step_of_pc_outside hr' hp
  · exact step_of_decode_error hr' hq hd
  · have hi : ∀ r, i ≠ .sysRead r := fun r hi => hno q r hq (hi ▸ hd)
    exact (step_of_decode_ok hr' hq hd).trans (exec_setAnswers answers hi hexec)

/-- Settles O26: a step looks at the answers only in a SYS read, which takes the first. -/
theorem nextStateDependsOnAtMostOneAnswer : Obligations.NextStateDependsOnAtMostOneAnswer := by
  refine ⟨fun s t answers => step_setAnswers_of_no_read answers, fun s t q r a rest rest' hr hq hd ha h => ?_,
    fun s t a rest rest' hr ha h => ?_⟩
  · rw [step_of_decode_ok hr hq hd] at h
    have hr' : (s.setAnswers (a :: rest')).run = .running := hr
    exact ⟨exec_sysRead_consumes (s := s.latch q) ha h,
      (step_of_decode_ok hr' hq hd).trans (exec_sysRead_setAnswers (s := s.latch q) rest' ha h)⟩
  · rw [step_of_waitInput hr] at h
    rcases resume_cases h with ⟨hnone, -⟩ | ⟨a', tail, q, r, -, hir, hd, hexec⟩
    · simp [hnone] at ha
    · have hr' : (s.setAnswers (a :: rest')).run = .waitInput := hr
      exact ⟨exec_sysRead_consumes (s := s.resumeRead) ha hexec,
        (step_resume hr' hir hd rfl).trans (exec_sysRead_setAnswers (s := s.resumeRead) rest' ha hexec)⟩

/-! ## The output log -/

/-- The state with another output log in place of its own. -/
def State.withLog (log : List OutEvent) (s : State) : State := { s with out := log }

theorem blindPointers_withLog (log : List OutEvent) : BlindPointers (State.withLog log) := by
  constructor
  case toBlindStack =>
    constructor
    case toBlind => constructor <;> intros <;> rfl
    all_goals intros; rfl
  all_goals intros; rfl

/-- What an execution from `s` to `t` adds to the log: the event of a SYS write that completed, or nothing. -/
theorem exec_out_cases {i : Instr} {s t : State} (h : exec i s = .next t) :
    t.out = s.out ∨ ∃ r v, i = .sysWrite r ∧ s.rf.get r = some v ∧ t.out = s.out ++ [⟨r, v⟩] := by
  cases exec_cases h with
  | sysWrite r v hv => exact .inr ⟨r, v, rfl, hv, rfl⟩
  | _ => exact .inl rfl

/-- Every instruction adds to any log what it adds to the present one, and does the same otherwise. -/
theorem exec_withLog (log : List OutEvent) {i : Instr} {s t : State} (h : exec i s = .next t) :
    ∃ new, t.out = s.out ++ new ∧ exec i (s.withLog log) = .next (t.withLog (log ++ new)) := by
  by_cases hwrite : ∃ r, i = .sysWrite r
  · obtain ⟨r, rfl⟩ := hwrite
    cases hv : s.rf.get r with
    | none =>
      rw [exec_sysWrite_of_empty hv] at h
      cases h
      refine ⟨[], by simp, ?_⟩
      rw [exec_sysWrite_of_empty (s := s.withLog log) hv, List.append_nil]
      rfl
    | some v =>
      rw [exec_sysWrite_of_word hv] at h
      cases h
      exact ⟨[⟨r, v⟩], rfl, exec_sysWrite_of_word (s := s.withLog log) hv⟩
  · have hkept : t.out = s.out :=
      (exec_out_cases h).resolve_right fun ⟨r, v, hi, _⟩ => hwrite ⟨r, hi⟩
    have hg := blindPointers_withLog log
    refine ⟨[], by simp [hkept], ?_⟩
    rw [List.append_nil]
    by_cases hread : ∃ r, i = .sysRead r
    · obtain ⟨r, rfl⟩ := hread
      exact sysRead_map hg.toBlind (fun _ => rfl) (fun _ _ => rfl) (fun _ => rfl) h
    · exact exec_map_of_blindPointers hg (fun r hr => hread ⟨r, hr⟩) (fun r hr => hwrite ⟨r, hr⟩) h

theorem step_out_cases {s t : State} (h : step s = .next t) :
    t.out = s.out ∨ s.run = .running ∧ ∃ q r v, s.fetches q ∧ decode q = .ok (.sysWrite r)
      ∧ s.rf.get r = some v ∧ t.out = s.out ++ [⟨r, v⟩] := by
  rcases step_cases h with ⟨hr, ⟨-, rfl⟩ | ⟨q, hq, ⟨e, -, rfl⟩ | ⟨i, hd, hexec⟩⟩⟩ |
    ⟨-, ⟨-, rfl⟩ | ⟨a, rest, q, r, -, -, -, hexec⟩⟩
  · exact .inl rfl
  · exact .inl rfl
  · rcases exec_out_cases hexec with hkept | ⟨r, v, rfl, hv, hgrown⟩
    · exact .inl hkept
    · exact .inr ⟨hr, q, r, v, hq, hd, hv, hgrown⟩
  · exact .inl rfl
  · rcases exec_out_cases hexec with hkept | ⟨_, _, hi, -⟩
    · exact .inl hkept
    · cases hi

theorem step_withLog (log : List OutEvent) {s t : State} (h : step s = .next t) :
    ∃ new, t.out = s.out ++ new ∧ step (s.withLog log) = .next (t.withLog (log ++ new)) := by
  rcases step_cases h with ⟨hr, hrunning⟩ | ⟨hr, hwaiting⟩
  · have hr' : (s.withLog log).run = .running := hr
    rcases hrunning with ⟨hp, rfl⟩ | ⟨q, hq, ⟨e, hd, rfl⟩ | ⟨i, hd, hexec⟩⟩
    · refine ⟨[], by simp, ?_⟩
      rw [List.append_nil]
      exact step_of_pc_outside hr' hp
    · refine ⟨[], by simp, ?_⟩
      rw [List.append_nil]
      exact step_of_decode_error hr' hq hd
    · obtain ⟨new, hnew, hexec'⟩ := exec_withLog log hexec
      exact ⟨new, hnew, (step_of_decode_ok hr' hq hd).trans hexec'⟩
  · have hr' : (s.withLog log).run = .waitInput := hr
    rcases hwaiting with ⟨ha, rfl⟩ | ⟨a, rest, q, r, ha, hir, hd, hexec⟩
    · have ha' : (t.withLog log).answers = [] := ha
      refine ⟨[], by simp, ?_⟩
      rw [List.append_nil, step_of_waitInput hr', resume, ha']
    · obtain ⟨new, hnew, hexec'⟩ := exec_withLog log hexec
      exact ⟨new, hnew, (step_resume hr' hir hd ha).trans hexec'⟩

/-- Settles O27: the log enters a step only where SYS write appends to it. -/
theorem outputLogOnlyGrowsBySysWrite : Obligations.OutputLogOnlyGrowsBySysWrite :=
  fun _ _ h => ⟨step_out_cases h, fun log => step_withLog log h⟩

end Sys2Proof.Machine
end
